-- ==== Sys2Proof/Word.lean ====
section
/-! DEFINITION. The word and byte types of OSCBANK7 (rules R19, R20, R33, R41, R100). -/

namespace Sys2Proof

/-- A command word, a response word or a 32-bit register (R100, R33). -/
abbrev Word := BitVec 32

/-- A 16-bit operand field: a note, a register number, a drawbar level, a mix (R101, R102). -/
abbrev Half := BitVec 16

/-- An 8-bit pattern: a table cell or a gain; its signed reading is `BitVec.toInt` (R41, R70). -/
abbrev Byte := BitVec 8

/-- One value per harmonic, 0 the highest, 6 the bass (R27, R160). -/
abbrev Lanes (α : Type) := Vector α 7

end Sys2Proof
end

