-- ==== Sys2Proof/Config.lean ====
section
/-! DEFINITION. The parameters of one OSCBANK7 (rules R12 to R16) and the model's free values. -/

namespace Sys2Proof

/-- A run of table-memory addresses that the platform backs (part of TMAPPED, R71). -/
structure Region where
  base : Nat
  size : Nat
  deriving DecidableEq, Repr

/-- The parameters k, r, A, TMAPPED and NTF (R12, R13, R14, R16). No step changes them. -/
structure Config where
  /-- LOG2_CELLS, written k: a table has N = 2^k cells (R12). -/
  log2Cells : Nat
  /-- LOG2_RATE, written r: the host issues R = 2^r sample commands a second (R13). -/
  log2Rate : Nat
  /-- ADDR_BITS, written A: the width of a table-memory address (R16). -/
  addrBits : Nat
  /-- TMAPPED: the runs of addresses backed with memory (R71). -/
  mapped : List Region
  /-- The values of NTF that are given; the others are `Config.ntfElsewhere` (R14). -/
  ntfGiven : List (Half × Word)
  deriving DecidableEq, Repr

/-- SEED at power-on: lane i's draw, under no law (R15, R35). A free value, log entry 3. -/
opaque Config.seed : Nat → Word

/-- The cell value of the n-th draw of an unmapped `TRead`, under no law (R72). A free value, log entry 6. -/
opaque Config.freeCell : Nat → Byte

/-- NTF at the biased notes for which the configuration gives no value (R14). Uninterpreted, log entry 5. -/
opaque Config.ntfElsewhere : Half → Word

/-- N, the number of cells of a table (R12). -/
def Config.cells (c : Config) : Nat := 2 ^ c.log2Cells

/-- The number of locations of table memory, 2^A (R70). -/
def Config.space (c : Config) : Nat := 2 ^ c.addrBits

/-- The parameters at `State.reset`: those of the spec's test configuration T1 (95_test_vectors.md
section 2), with no value of NTF given. DESIGN CHOICE, log entry 2. -/
def Config.atReset : Config where
  log2Cells := 3
  log2Rate := 4
  addrBits := 8
  mapped := [⟨0, 256⟩]
  ntfGiven := []

end Sys2Proof
end

