-- ==== Sys2Proof/Syntax.lean ====
section
/-! DEFINITION. The nine commands of OSCBANK7-CMD version 1 (rule R103), operands as the packet carries them. -/

namespace Sys2Proof

/-- A command with its operands (R103, R106, R107). The pointer operands of SETWT are the whole
operand words: taking their low A bits is part of the command's meaning (R183). -/
inductive Instr where
  /-- NEXT: advance and sample (R150). -/
  | next
  /-- PEEK: sample without advancing (R151). -/
  | peek
  /-- PHMOD: advance and sample at a modulated phase; `proportion` is S16.16 (R152). -/
  | phmod (proportion : Word)
  /-- SETWT: the four table pointers (R183). -/
  | setwt (w1 b1 w2 b2 : Word)
  /-- SETFREQ: a frequency in Q16.16 hertz (R188). -/
  | setfreq (frequency : Word)
  /-- SETNOTE: a signed note number (R190). -/
  | setnote (note : Half)
  /-- SETNOTESH: a signed note number and a signed detune (R192). -/
  | setnotesh (note : Half) (shift : Word)
  /-- SETGAINS: seven drawbar levels and the cross-fade position (R200). -/
  | setgains (g0 g1 g2 g3 g4 g5 g6 mix : Half)
  /-- RDREG: read back one register by number (R230). -/
  | rdreg (reg : Half)
  deriving DecidableEq, Repr

end Sys2Proof
end

