-- ==== Sys2Proof/Decode.lean ====
section
/-! DEFINITION. Packets to commands and back (30_encoding.md, rules R100 to R111), header by header,
with the causes by which an illegal header is rejected (R254). -/

namespace Sys2Proof

/-- The two command ports: A the audio-rate consumer, C the configuration actor (R4, R84). -/
inductive Port where
  | a
  | c
  deriving DecidableEq, Repr

/-- The rows of the opcode map (R103). -/
inductive Opcode where
  | next | peek | phmod | setwt | setfreq | setnote | setnotesh | setgains | rdreg
  deriving DecidableEq, Repr

/-- Why a header is illegal (R254). -/
inductive Cause where
  /-- The opcode is no row of the map (code 1). -/
  | badOpcode
  /-- The opcode belongs to the other port (code 2). -/
  | wrongPort
  /-- RSV, or an IMM16 that must be 0, is not 0 (code 3). -/
  | badField
  deriving DecidableEq, Repr

/-- What a port finds in the words it holds (R104). -/
inductive Decoded where
  /-- No packet is open, or the packet is not whole yet: the port has no step. -/
  | waiting
  /-- The first word is an illegal header. -/
  | illegal (cause : Cause) (hdr : Word)
  /-- A whole packet, and the words received after it. -/
  | command (i : Instr) (rest : List Word)
  deriving DecidableEq, Repr

/-! ### The opcode map (R103) -/

/-- OPC of a row (R103). -/
def Opcode.code : Opcode → Byte
  | .next => 0x01#8
  | .peek => 0x02#8
  | .phmod => 0x03#8
  | .setwt => 0x10#8
  | .setfreq => 0x11#8
  | .setnote => 0x12#8
  | .setnotesh => 0x13#8
  | .setgains => 0x14#8
  | .rdreg => 0x20#8

/-- The row an OPC value selects, if any (R103). -/
def Opcode.ofCode? (b : Byte) : Option Opcode :=
  match b.toNat with
  | 0x01 => some .next
  | 0x02 => some .peek
  | 0x03 => some .phmod
  | 0x10 => some .setwt
  | 0x11 => some .setfreq
  | 0x12 => some .setnote
  | 0x13 => some .setnotesh
  | 0x14 => some .setgains
  | 0x20 => some .rdreg
  | _ => none

/-- The port on which a row is legal (R108). -/
def Opcode.port : Opcode → Port
  | .next => .a
  | .peek => .a
  | .phmod => .a
  | .setwt => .c
  | .setfreq => .c
  | .setnote => .c
  | .setnotesh => .c
  | .setgains => .c
  | .rdreg => .c

/-- The number of operand words after the header (R103). -/
def Opcode.operandWords : Opcode → Nat
  | .next => 0
  | .peek => 0
  | .phmod => 1
  | .setwt => 4
  | .setfreq => 1
  | .setnote => 0
  | .setnotesh => 1
  | .setgains => 4
  | .rdreg => 0

/-- Whether IMM16 carries an operand; where it does not, it must be 0 (R101, R109). -/
def Opcode.usesImm : Opcode → Bool
  | .next => false
  | .peek => false
  | .phmod => false
  | .setwt => false
  | .setfreq => false
  | .setnote => true
  | .setnotesh => true
  | .setgains => false
  | .rdreg => true

/-! ### Fields (R101, R102) -/

/-- Header bits 7:0 (R101). -/
def headerOpc (h : Word) : Byte := h.extractLsb' 0 8

/-- Header bits 15:8 (R101). -/
def headerRsv (h : Word) : Byte := h.extractLsb' 8 8

/-- Header bits 31:16 (R101). -/
def headerImm (h : Word) : Half := h.extractLsb' 16 16

/-- Operand x of format P16: bits 15:0 (R102). -/
def pairLow (w : Word) : Half := w.extractLsb' 0 16

/-- Operand y of format P16: bits 31:16 (R102). -/
def pairHigh (w : Word) : Half := w.extractLsb' 16 16

/-! ### Decoding -/

/-- R109 and R254: why a header received on port `p` is illegal, or `none` where it is legal. -/
def headerCause (p : Port) (h : Word) : Option Cause :=
  match Opcode.ofCode? (headerOpc h) with
  | none => some .badOpcode
  | some o =>
    if o.port ≠ p then some .wrongPort
    else if headerRsv h ≠ 0#8 then some .badField
    else if headerImm h ≠ 0#16 ∧ o.usesImm = false then some .badField
    else none

/-- R106 and R107: the operands of a legal header's packet, once its words are all there. -/
def assembleOperands (o : Opcode) (imm : Half) (ws : List Word) : Decoded :=
  match o, ws with
  | .next, rest => .command .next rest
  | .peek, rest => .command .peek rest
  | .phmod, w1 :: rest => .command (.phmod w1) rest
  | .phmod, [] => .waiting
  | .setwt, w1 :: w2 :: w3 :: w4 :: rest => .command (.setwt w1 w2 w3 w4) rest
  | .setwt, _ => .waiting
  | .setfreq, w1 :: rest => .command (.setfreq w1) rest
  | .setfreq, [] => .waiting
  | .setnote, rest => .command (.setnote imm) rest
  | .setnotesh, w1 :: rest => .command (.setnotesh imm w1) rest
  | .setnotesh, [] => .waiting
  | .setgains, w1 :: w2 :: w3 :: w4 :: rest =>
    .command (.setgains (pairLow w1) (pairHigh w1) (pairLow w2) (pairHigh w2) (pairLow w3)
      (pairHigh w3) (pairLow w4) (pairHigh w4)) rest
  | .setgains, _ => .waiting
  | .rdreg, rest => .command (.rdreg imm) rest

/-- R104: what port `p` makes of the words it holds, oldest first. -/
def decode (p : Port) : List Word → Decoded
  | [] => .waiting
  | h :: ws =>
    match headerCause p h, Opcode.ofCode? (headerOpc h) with
    | some cause, _ => .illegal cause h
    | none, some o => assembleOperands o (headerImm h) ws
    | none, none => .waiting

/-! ### Encoding -/

/-- The header of a command (format H, R101). -/
def packHeader (o : Opcode) (imm : Half) : Word := imm ++ (0#8 ++ o.code)

/-- A P16 operand word: `x` in bits 15:0, `y` in bits 31:16 (R102). -/
def packPair (x y : Half) : Word := y ++ x

/-- The row of a command (R103). -/
def Instr.opcode : Instr → Opcode
  | .next => .next
  | .peek => .peek
  | .phmod _ => .phmod
  | .setwt _ _ _ _ => .setwt
  | .setfreq _ => .setfreq
  | .setnote _ => .setnote
  | .setnotesh _ _ => .setnotesh
  | .setgains _ _ _ _ _ _ _ _ => .setgains
  | .rdreg _ => .rdreg

/-- The words of a command, header first (R101 to R107). -/
def encode : Instr → List Word
  | .next => [packHeader .next 0#16]
  | .peek => [packHeader .peek 0#16]
  | .phmod proportion => [packHeader .phmod 0#16, proportion]
  | .setwt w1 b1 w2 b2 => [packHeader .setwt 0#16, w1, b1, w2, b2]
  | .setfreq frequency => [packHeader .setfreq 0#16, frequency]
  | .setnote note => [packHeader .setnote note]
  | .setnotesh note shift => [packHeader .setnotesh note, shift]
  | .setgains g0 g1 g2 g3 g4 g5 g6 mix =>
    [packHeader .setgains 0#16, packPair g0 g1, packPair g2 g3, packPair g4 g5, packPair g6 mix]
  | .rdreg reg => [packHeader .rdreg reg]

/-! ### The byte view of a word (R77) -/

/-- R77: a word carried as four bytes, byte 0 in bits 7:0. -/
def wordOfBytes (b0 b1 b2 b3 : Byte) : Word := b3 ++ (b2 ++ (b1 ++ b0))

/-- R77: byte `n` of a word, bits 8n+7 : 8n. -/
def byteOfWord (w : Word) (n : Nat) : Byte := w.extractLsb' (8 * n) 8

/-! ### Words numbered as the opcode table numbers them -/

/-- Word `n` of an instruction of `nbits` bits numbered as spec/opcode_table.json numbers them, the
bits above `nbits` being 0. -/
def tableWord (nbits w n : Nat) : Word := BitVec.ofNat 32 (w % 2 ^ nbits / 2 ^ (32 * n))

/-- The five words of the longest packet (R103), header first. -/
def tableWords (nbits w : Nat) : List Word :=
  [tableWord nbits w 0, tableWord nbits w 1, tableWord nbits w 2, tableWord nbits w 3,
    tableWord nbits w 4]

/-- The port whose opcode a header carries; port C for an opcode of neither (R108). -/
def tablePort (h : Word) : Port :=
  match Opcode.ofCode? (headerOpc h) with
  | some o => o.port
  | none => .c

/-- The packet's own words out of `tableWords`: an illegal header takes no operand words (R104). -/
def tablePacket (nbits w : Nat) : List Word :=
  match Opcode.ofCode? (headerOpc (tableWord nbits w 0)) with
  | some o => (tableWords nbits w).take (1 + o.operandWords)
  | none => [tableWord nbits w 0]

/-- The command the decoder reads from an instruction whose bits are `w`, on the port its opcode
belongs to. -/
def decodeTableWord (nbits w : Nat) : Option Instr :=
  match decode (tablePort (tableWord nbits w 0)) (tablePacket nbits w) with
  | .command i _ => some i
  | .illegal _ _ => none
  | .waiting => none

end Sys2Proof
end

