-- ==== Sys2Proof/Machine/Flags.lean ====
section
/-! DEFINITION. The fields of STATUS (rule R49), how commands and the illegal-command fault write
them (rules R183, R187, R200, R252, R254), and the hardwired CONFIG word (rule R50). -/

namespace Sys2Proof.Machine

/-- STATUS bit 0, TBL_SET (R49). -/
def tblSetMask : Word := 0x00000001#32

/-- STATUS bit 1, FREQ_SET (R49). -/
def freqSetMask : Word := 0x00000002#32

/-- STATUS bit 2, GAIN_SET (R49). -/
def gainSetMask : Word := 0x00000004#32

/-- The reserved bits of STATUS: 7:5, 11 and 31:15 (R49). -/
def reservedMask : Word := 0xFFFF88E0#32

/-- FAULT_A is bit 3 and FAULT_C bit 4 (R49). -/
def faultMask : Port → Word
  | .a => 0x00000008#32
  | .c => 0x00000010#32

/-- CAUSE_A starts at bit 8 and CAUSE_C at bit 12 (R49). -/
def causeShift : Port → Nat
  | .a => 8
  | .c => 12

/-- CAUSE_A is bits 10:8 and CAUSE_C bits 14:12 (R49). -/
def causeMask (p : Port) : Word := 0x7#32 <<< causeShift p

/-- The cause codes (R254). -/
def causeCode : Cause → Word
  | .badOpcode => 1#32
  | .wrongPort => 2#32
  | .badField => 3#32

/-- STATUS with one "set" bit at 1 (R183, R187, R200). -/
def withSetBit (mask status : Word) : Word := status ||| mask

/-- FAULT_P of a STATUS word (R49). -/
def faultBit (p : Port) (status : Word) : Bool := status &&& faultMask p != 0#32

/-- CAUSE_P of a STATUS word (R49). -/
def causeField (p : Port) (status : Word) : Word := (status &&& causeMask p) >>> causeShift p

/-- R252: FAULT_P at 1 and CAUSE_P at the cause's code. -/
def withFault (p : Port) (cause : Cause) (status : Word) : Word :=
  (status &&& ~~~ causeMask p) ||| (causeCode cause <<< causeShift p) ||| faultMask p

/-- STATUS with no fault recorded for a port, as reset leaves it (R258). -/
def withoutFault (p : Port) (status : Word) : Word :=
  status &&& ~~~ (causeMask p ||| faultMask p)

/-- R50: CONFIG, {7, A, r, k} from the top byte down. -/
def configWord (c : Config) : Word :=
  7#8 ++ (BitVec.ofNat 8 c.addrBits ++ (BitVec.ofNat 8 c.log2Rate ++ BitVec.ofNat 8 c.log2Cells))

end Sys2Proof.Machine
end

