-- ==== Sys2Proof/Machine/Operands.lean ====
section
/-! DEFINITION. Operand forms and arithmetic of the commands on bare values: addresses, indices,
frequencies, increments, gains, samples (rules R20, R21, R72, R73, R142, R145, R152, R186 to R203). -/

namespace Sys2Proof.Machine

/-! ### Notation (R21) -/

/-- R21: `a >>s n`, floor(a / 2^n), rounding toward minus infinity. -/
def floorShift (a : Int) (n : Nat) : Int := a / 2 ^ n

/-! ### Table memory addresses -/

/-- R107: `lo_A` of a SETWT operand word; bits 31:A are ignored. -/
def pointerOperand (c : Config) (w : Word) : Word := BitVec.ofNat 32 (w.toNat % c.space)

/-- R73: the address of cell `idx` of the table at `p`, wrapping at the top of table memory. -/
def cellAddress (c : Config) (p : Word) (idx : Nat) : Nat := (p.toNat + idx) % c.space

/-- R71: TMAPPED, whether the platform backs an address. -/
def isMapped (c : Config) (addr : Nat) : Bool :=
  decide (addr < c.space) &&
    c.mapped.any fun r => decide (r.base ≤ addr) && decide (addr < r.base + r.size)

/-- R75: whether `addr` lies in the referenced region {lo_A(p + j) : 0 ≤ j < N} of a pointer. -/
def isReferencedBy (c : Config) (p : Word) (addr : Nat) : Bool :=
  decide (addr < c.space) &&
    decide ((addr + (c.space - p.toNat % c.space)) % c.space < c.cells)

/-! ### Samples -/

/-- R141: the read phase `lo_32(p[i] + off)`. -/
def readPhase (p off : Word) : Word := BitVec.ofNat 32 (p.toNat + off.toNat)

/-- R142: the table index `(q >>u 16) & (N - 1)`. -/
def tableIndex (c : Config) (q : Word) : Nat := (q.toNat >>> 16) &&& (c.cells - 1)

/-- R152: the phase offset `lo_32(proportion * N)`. -/
def phaseOffset (c : Config) (proportion : Word) : Word :=
  BitVec.ofInt 32 (proportion.toInt * (c.cells : Int))

/-- R150: one phase advanced by its increment, modulo 2^32. -/
def advancedPhase (phase inc : Word) : Word := BitVec.ofNat 32 (phase.toNat + inc.toNat)

/-- R145: the sample `as_s16(lo_16(acc >>s 2))` of an exact sum. -/
def sampleOfSum (acc : Int) : Half := BitVec.ofInt 16 (floorShift acc 2)

/-- R147: the response word `sext_32(sample)`. -/
def sampleWord (sample : Half) : Word := sample.signExtend 32

/-! ### Frequencies -/

/-- R14: NTF at a biased note: the value the configuration gives, else an uninterpreted one. -/
def noteFrequency (c : Config) (biased : Half) : Word :=
  match c.ntfGiven.lookup biased with
  | some f => f
  | none => Config.ntfElsewhere biased

/-- R189: the biased note `lo_16(note + 96)` of a signed note number. -/
def biasedNote (note : Half) : Half := BitVec.ofInt 16 (note.toInt + 96)

/-- R191: the detuned frequency `lo_32(f0 + tdiv(f0 * shift, 1023))`. -/
def detuned (f0 shift : Word) : Word :=
  BitVec.ofInt 32 ((f0.toNat : Int) + Int.tdiv ((f0.toNat : Int) * shift.toInt) 1023)

/-- R186: `Inc0(f)`, the increment of harmonic 0. -/
def firstIncrement (c : Config) (f : Word) : Word :=
  if c.log2Rate ≤ c.log2Cells then BitVec.ofNat 32 (f.toNat * 2 ^ (c.log2Cells - c.log2Rate))
  else f >>> (c.log2Rate - c.log2Cells)

/-- R187: the seven increments `v >>u i`. -/
def octaveStack (v : Word) : Lanes Word := Vector.ofFn fun i : Fin 7 => v >>> i.val

/-! ### Gains -/

/-- R202: `scale1 = tdiv(36 * (64 - mix), 64)`. -/
def scaleOne (mix : Half) : Int := Int.tdiv (36 * (64 - (mix.toNat : Int))) 64

/-- R202: `scale2 = tdiv(36 * mix, 64)`. -/
def scaleTwo (mix : Half) : Int := Int.tdiv (36 * (mix.toNat : Int)) 64

/-- R203: `as_s8(lo_8((g * scale) >>s 10))`. -/
def gainValue (g : Half) (scale : Int) : Byte :=
  BitVec.ofInt 8 (floorShift ((g.toNat : Int) * scale) 10)

/-- R201: seven gains from drawbar levels g0..g6, harmonic i taking level g_(6-i). -/
def gainStack (levels : Lanes Half) (scale : Int) : Lanes Byte :=
  Vector.ofFn fun i : Fin 7 => gainValue levels[6 - i.val] scale

end Sys2Proof.Machine
end

