-- ==== Sys2Proof/Machine/State.lean ====
section
/-! DEFINITION. The state of one OSCBANK7 with the host's table memory and pending moves
(10_state.md; 20_memory.md rules R70, R71, R85), its stops, and its reset (R54, R281). -/

namespace Sys2Proof.Machine

/-- Why a step faults. -/
inductive Fault where
  /-- Raised by a host `TWrite` to an address outside the 2^A locations of table memory, which do
  not exist (R70). SAFE: nothing is proved of a run that contains such a move. -/
  | hostWriteOutsideTableMemory (addr : Nat)
  deriving DecidableEq, Repr

/-- Why a step is refused. -/
inductive Refusal where
  /-- Raised by `exec` for a command that has no meaning in the model; no arm raises it. SAFE. -/
  | notModelled (mnemonic : String)
  /-- Raised by `step` where k, r or A is out of range (R18). SAFE: nothing is claimed there. -/
  | illFormedConfig
  /-- Raised by a host `TWrite` to a cell in the referenced set of some instance: the model has no
  such move (R81). UNSAFE, as decision D20 says: a claim covers only hosts that keep the contract. -/
  | hostWriteToReferencedCell (addr : Nat)
  /-- Raised by a host `TWrite` to an address the platform does not back: the move exists only for a
  mapped address (R81). UNSAFE in the same way. -/
  | hostWriteToUnmappedCell (addr : Nat)
  deriving DecidableEq, Repr

/-- One step of the outside world, or the service of one port (R85, R280; log entry 7). -/
inductive Move where
  /-- The host delivers one command word to a port (R104). -/
  | deliver (p : Port) (w : Word)
  /-- The port performs its next command, or its illegal-command fault, if it has one (R85). -/
  | serve (p : Port)
  /-- The host writes one cell of table memory: `TWrite(addr, v)` (R81). -/
  | tableWrite (addr : Nat) (v : Byte)
  /-- The host takes the oldest word of a response stream (R52). -/
  | consume (p : Port)
  /-- The host resets the instance, with the seven seeds drawn for that reset (R280, R282). -/
  | reset (seeds : Lanes Word)
  /-- The instances that share table memory now hold these pointers (R94). -/
  | otherInstances (pointers : List Word)
  deriving DecidableEq, Repr

/-- The whole machine: the instance of R30, the host's table memory (R71), the parameters, and the
model's own `moves` and `draws`. -/
structure State where
  /-- The parameters k, r, A, TMAPPED and NTF; no step changes them (R12 to R16, log entry 1). -/
  cfg : Config
  /-- Phase accumulators (R33). -/
  phase : Lanes Word
  /-- Phase increments (R37). -/
  inc : Lanes Word
  /-- Gains of timbre set 1, signed (R41). -/
  gain1 : Lanes Byte
  /-- Gains of timbre set 2, signed (R41). -/
  gain2 : Lanes Byte
  /-- Table of set 1 for harmonics 0 to 5; an A-bit value (R45). -/
  wave1 : Word
  /-- Table of set 1 for harmonic 6; an A-bit value (R45). -/
  bass1 : Word
  /-- Table of set 2 for harmonics 0 to 5; an A-bit value (R45). -/
  wave2 : Word
  /-- Table of set 2 for harmonic 6; an A-bit value (R45). -/
  bass2 : Word
  /-- STATUS (R49). -/
  status : Word
  /-- The header that faulted port A (R56). -/
  fhdrA : Word
  /-- The header that faulted port C (R56). -/
  fhdrC : Word
  /-- Words port A has received and not yet performed, oldest first (R52). -/
  pendA : List Word
  /-- Words port C has received and not yet performed, oldest first (R52). -/
  pendC : List Word
  /-- Port A's response stream, oldest first (R52). -/
  respA : List Word
  /-- Port C's response stream, oldest first (R52). -/
  respC : List Word
  /-- Table memory: the cells that differ from `blankCell`, addresses rising (R70, R71). -/
  tmem : List Host.Cell
  /-- Pointers that other instances sharing table memory hold (R81, R94; log entry 13). -/
  otherPointers : List Word
  /-- What the outside world does next, in order (R85; log entry 7). MODEL'S OWN. -/
  moves : List Move
  /-- How many free cell values have been drawn (R72; log entry 6). MODEL'S OWN. -/
  draws : Nat
  deriving DecidableEq, Repr

/-- The machine right after reset (R54): every register at its value, the phases at seeds drawn
under no law, table memory with nothing listed, no move pending. -/
def State.reset : State where
  cfg := Config.atReset
  phase := Vector.ofFn fun i : Fin 7 => Config.seed i.val
  inc := Vector.replicate 7 0#32
  gain1 := Vector.replicate 7 0#8
  gain2 := Vector.replicate 7 0#8
  wave1 := 0#32
  bass1 := 0#32
  wave2 := 0#32
  bass2 := 0#32
  status := 0#32
  fhdrA := 0#32
  fhdrC := 0#32
  pendA := []
  pendC := []
  respA := []
  respC := []
  tmem := []
  otherPointers := []
  moves := []
  draws := 0

end Sys2Proof.Machine
end

