-- ==== Sys2Proof/WellFormed.lean ====
section
/-! DEFINITION. The well-formedness checks the spec states: of a configuration (R18) and of an
assembled command's operands (R112). Every packet's operands are legal to the machine (R110). -/

namespace Sys2Proof

/-- R18: k, r and A lie in the ranges of R12, R13 and R16. -/
def Config.wellFormed (c : Config) : Bool :=
  decide (c.log2Cells ≤ 16) && decide (c.log2Rate ≤ 31) &&
    (decide (1 ≤ c.addrBits) && decide (c.addrBits ≤ 32))

/-- R112: an assembler refuses a SETWT operand that is not an A-bit address; every other field
admits every value of its width. -/
def Instr.wellFormed (c : Config) : Instr → Bool
  | .next => true
  | .peek => true
  | .phmod _ => true
  | .setwt w1 b1 w2 b2 =>
    decide (w1.toNat < c.space) && decide (b1.toNat < c.space) &&
      (decide (w2.toNat < c.space) && decide (b2.toNat < c.space))
  | .setfreq _ => true
  | .setnote _ => true
  | .setnotesh _ _ => true
  | .setgains _ _ _ _ _ _ _ _ => true
  | .rdreg _ => true

end Sys2Proof
end

