-- ==== Sys2Proof/Machine/Ops.lean ====
section
/-! DEFINITION. The named operations over table memory, the registers and the ports: reads and host
writes of table memory (20_memory.md), the mix (R141), the increments' write (R187), responses,
packet buffers, the illegal-command fault (R252) and the way out of it, reset (R281). -/

namespace Sys2Proof.Machine

/-! ### Table memory as a canonical list of cells -/

/-- What a cell that memory does not list holds. DESIGN CHOICE, log entry 4. -/
def blankCell : Byte := 0#8

/-- The byte at an address (R70). -/
def Memory.read : List Host.Cell → Nat → Byte
  | [], _ => blankCell
  | (b, v) :: m, a => if a = b then v else Memory.read m a

/-- The memory in which address `a` holds `v`; a cell that holds `blankCell` is not listed. -/
def Memory.write : List Host.Cell → Nat → Byte → List Host.Cell
  | [], a, v => if v = blankCell then [] else [(a, v)]
  | (b, u) :: m, a, v =>
    if a < b then (if v = blankCell then (b, u) :: m else (a, v) :: (b, u) :: m)
    else if a = b then (if v = blankCell then m else (a, v) :: m)
    else (b, u) :: Memory.write m a v

/-- The canonical form: addresses strictly rising and no cell listed that holds `blankCell`. -/
abbrev Memory.wf (m : List Host.Cell) : Prop :=
  m.Pairwise (fun x y => x.1 < y.1) ∧ ∀ x ∈ m, x.2 ≠ blankCell

/-- R72: `TRead(addr)` as an 8-bit pattern: the cell where the platform backs the address, else the
`n`-th free value after those already drawn. -/
def State.tableRead (s : State) (n addr : Nat) : Byte :=
  if isMapped s.cfg addr then Memory.read s.tmem addr else Config.freeCell (s.draws + n)

/-- The instance's own table pointers (R45). -/
def State.pointers (s : State) : List Word := [s.wave1, s.bass1, s.wave2, s.bass2]

/-- R75 and R94: whether an address is in the referenced set of this instance or of another. DESIGN
CHOICE: the regions of the other instances are taken with this instance's own N and A (log entry 27). -/
def State.isReferenced (s : State) (addr : Nat) : Bool :=
  (s.pointers ++ s.otherPointers).any fun p => isReferencedBy s.cfg p addr

/-- R81: the host's `TWrite(addr, v)`. The stops are a DESIGN CHOICE (R81, U2; log entry 12). -/
def State.hostWrite (s : State) (addr : Nat) (v : Byte) : Host.Outcome State Fault Refusal :=
  if s.cfg.space ≤ addr then .fault (.hostWriteOutsideTableMemory addr)
  else if isMapped s.cfg addr = false then .refused (.hostWriteToUnmappedCell addr)
  else if s.isReferenced addr then .refused (.hostWriteToReferencedCell addr)
  else .next { s with tmem := Memory.write s.tmem addr v }

/-! ### Ports -/

/-- `pend_P` (R52). -/
def State.pend (s : State) : Port → List Word
  | .a => s.pendA
  | .c => s.pendC

/-- Port P's response stream (R52). -/
def State.resp (s : State) : Port → List Word
  | .a => s.respA
  | .c => s.respC

/-- `FHDR_P` (R56). -/
def State.fhdr (s : State) : Port → Word
  | .a => s.fhdrA
  | .c => s.fhdrC

/-- `pend_P <- ws`. -/
def State.setPend (s : State) (p : Port) (ws : List Word) : State :=
  match p with
  | .a => { s with pendA := ws }
  | .c => { s with pendC := ws }

/-- Port P's response stream replaced. -/
def State.setResp (s : State) (p : Port) (ws : List Word) : State :=
  match p with
  | .a => { s with respA := ws }
  | .c => { s with respC := ws }

/-- `FHDR_P <- h`. -/
def State.setFhdr (s : State) (p : Port) (h : Word) : State :=
  match p with
  | .a => { s with fhdrA := h }
  | .c => { s with fhdrC := h }

/-- R253: whether port P is halted. -/
def State.halted (s : State) (p : Port) : Bool := faultBit p s.status

/-- R24: `respond_P(v)`. -/
def State.respond (s : State) (p : Port) (v : Word) : State := s.setResp p (s.resp p ++ [v])

/-- R104 and R253: a delivered word joins `pend_P`; a halted port discards it. -/
def State.deliver (s : State) (p : Port) (w : Word) : State :=
  if s.halted p then s else s.setPend p (s.pend p ++ [w])

/-- The host takes the oldest response word; an empty stream stays empty (R52). DEDUCED,
log entry 22. -/
def State.consume (s : State) (p : Port) : State := s.setResp p (s.resp p).tail

/-- R252: the illegal-command fault of port P on header `h`, a next state (log entries 11, 17). -/
def State.illegalCommand (s : State) (p : Port) (cause : Cause) (h : Word) : State :=
  let recorded := { s with status := withFault p cause s.status }
  (recorded.setFhdr p h).setPend p []

/-- R281: what a reset that drew `seeds` leaves; the parameters, table memory, the other instances
and the moves to come are not the instance's (log entry 23). -/
def State.resetInstance (s : State) (seeds : Lanes Word) : State where
  cfg := s.cfg
  phase := seeds
  inc := Vector.replicate 7 0#32
  gain1 := Vector.replicate 7 0#8
  gain2 := Vector.replicate 7 0#8
  wave1 := 0#32
  bass1 := 0#32
  wave2 := 0#32
  bass2 := 0#32
  status := 0#32
  fhdrA := 0#32
  fhdrC := 0#32
  pendA := []
  pendC := []
  respA := []
  respC := []
  tmem := s.tmem
  otherPointers := s.otherPointers
  moves := s.moves
  draws := s.draws

/-- The pointers of the other instances replaced, each an A-bit value (R45, R94). -/
def State.setOtherPointers (s : State) (ps : List Word) : State :=
  { s with otherPointers := ps.map (pointerOperand s.cfg) }

/-! ### The mix (R141) -/

/-- R143: the two tables harmonic `i` reads. -/
def State.laneTables (s : State) (i : Fin 7) : Word × Word :=
  if i.val ≤ 5 then (s.wave1, s.wave2) else (s.bass1, s.bass2)

/-- R142: the table index of harmonic `i` at phases `p` and offset `off`. -/
def State.laneIndex (s : State) (p : Lanes Word) (off : Word) (i : Fin 7) : Nat :=
  tableIndex s.cfg (readPhase p[i] off)

/-- R73: where harmonic `i` reads its set-1 cell. -/
def State.laneAddress1 (s : State) (p : Lanes Word) (off : Word) (i : Fin 7) : Nat :=
  cellAddress s.cfg (s.laneTables i).1 (s.laneIndex p off i)

/-- R73: where harmonic `i` reads its set-2 cell. -/
def State.laneAddress2 (s : State) (p : Lanes Word) (off : Word) (i : Fin 7) : Nat :=
  cellAddress s.cfg (s.laneTables i).2 (s.laneIndex p off i)

/-- R141: `c1 * gain1[i] + c2 * gain2[i]`, the reads numbered 2i and 2i + 1 of the fourteen. -/
def State.laneTerm (s : State) (p : Lanes Word) (off : Word) (i : Fin 7) : Int :=
  (s.tableRead (2 * i.val) (s.laneAddress1 p off i)).toInt * s.gain1[i].toInt +
    (s.tableRead (2 * i.val + 1) (s.laneAddress2 p off i)).toInt * s.gain2[i].toInt

/-- The seven harmonics in the order of R141. -/
def harmonics : List (Fin 7) := [0, 1, 2, 3, 4, 5, 6]

/-- R141 and R144: the exact sum of the fourteen weighted reads. -/
def State.mixSum (s : State) (p : Lanes Word) (off : Word) : Int :=
  harmonics.foldl (fun acc i => acc + s.laneTerm p off i) 0

/-- R141 and R145: `Mix(p, off)`. -/
def State.mix (s : State) (p : Lanes Word) (off : Word) : Half := sampleOfSum (s.mixSum p off)

/-- R150 and R152: every phase advanced by its increment. -/
def State.advance (s : State) : State :=
  { s with phase := Vector.ofFn fun i : Fin 7 => advancedPhase s.phase[i] s.inc[i] }

/-- R147: the sample at the phases as they stand, offset by `off`, appended to port A's stream; its
fourteen reads use up fourteen free values (R76, log entry 6). -/
def State.emitSample (s : State) (off : Word) : State :=
  let answered := s.respond .a (sampleWord (s.mix s.phase off))
  { answered with draws := s.draws + 14 }

/-! ### Setters -/

/-- R187: the seven increments of frequency `f`, written together, and FREQ_SET. -/
def State.setFrequency (s : State) (f : Word) : State :=
  { s with
    inc := octaveStack (firstIncrement s.cfg f)
    status := withSetBit freqSetMask s.status }

end Sys2Proof.Machine
end

