-- ==== Sys2Proof/Machine/Readback.lean ====
section
/-! DEFINITION. The readback command of port C (42_readback.md). -/

namespace Sys2Proof.Machine

/-- R231 and R232: `ReadReg`, register by number; a reserved number reads 0. -/
def State.readReg (s : State) (reg : Half) : Word :=
  let n := reg.toNat
  if h : n < 0x07 then s.phase[n]
  else if h : 0x08 ≤ n ∧ n < 0x0F then s.inc[n - 0x08]
  else if h : 0x10 ≤ n ∧ n < 0x17 then (s.gain1[n - 0x10]).signExtend 32
  else if h : 0x18 ≤ n ∧ n < 0x1F then (s.gain2[n - 0x18]).signExtend 32
  else if n = 0x20 then s.wave1
  else if n = 0x21 then s.bass1
  else if n = 0x22 then s.wave2
  else if n = 0x23 then s.bass2
  else if n = 0x30 then s.status
  else if n = 0x31 then configWord s.cfg
  else if n = 0x32 then s.fhdrA
  else if n = 0x33 then s.fhdrC
  else 0#32

/-- RDREG (R230). -/
def execRdreg (reg : Half) (s : State) : Host.Outcome State Fault Refusal :=
  .next (s.respond .c (s.readReg reg))

end Sys2Proof.Machine
end

