-- ==== Sys2Proof/Machine/Sample.lean ====
section
/-! DEFINITION. The sample commands of port A (40_sample.md section 2). -/

namespace Sys2Proof.Machine

/-- NEXT (R150). -/
def execNext (s : State) : Host.Outcome State Fault Refusal := .next (s.advance.emitSample 0#32)

/-- PEEK (R151). -/
def execPeek (s : State) : Host.Outcome State Fault Refusal := .next (s.emitSample 0#32)

/-- PHMOD (R152). -/
def execPhmod (proportion : Word) (s : State) : Host.Outcome State Fault Refusal :=
  .next (s.advance.emitSample (phaseOffset s.cfg proportion))

end Sys2Proof.Machine
end

