-- ==== Sys2Proof/Machine/Setters.lean ====
section
/-! DEFINITION. The setters of port C (41_config.md). -/

namespace Sys2Proof.Machine

/-- SETWT (R183). -/
def execSetwt (w1 b1 w2 b2 : Word) (s : State) : Host.Outcome State Fault Refusal :=
  .next { s with
    wave1 := pointerOperand s.cfg w1
    bass1 := pointerOperand s.cfg b1
    wave2 := pointerOperand s.cfg w2
    bass2 := pointerOperand s.cfg b2
    status := withSetBit tblSetMask s.status }

/-- SETFREQ (R188). -/
def execSetfreq (frequency : Word) (s : State) : Host.Outcome State Fault Refusal :=
  .next (s.setFrequency frequency)

/-- SETNOTE (R190). -/
def execSetnote (note : Half) (s : State) : Host.Outcome State Fault Refusal :=
  .next (s.setFrequency (noteFrequency s.cfg (biasedNote note)))

/-- SETNOTESH (R192). -/
def execSetnotesh (note : Half) (shift : Word) (s : State) : Host.Outcome State Fault Refusal :=
  .next (s.setFrequency (detuned (noteFrequency s.cfg (biasedNote note)) shift))

/-- SETGAINS (R200). -/
def execSetgains (g0 g1 g2 g3 g4 g5 g6 mix : Half) (s : State) :
    Host.Outcome State Fault Refusal :=
  .next { s with
    gain1 := gainStack #v[g0, g1, g2, g3, g4, g5, g6] (scaleOne mix)
    gain2 := gainStack #v[g0, g1, g2, g3, g4, g5, g6] (scaleTwo mix)
    status := withSetBit gainSetMask s.status }

end Sys2Proof.Machine
end

