-- ==== Sys2Proof/Machine/Dispatch.lean ====
section
/-! DEFINITION. One arm per command: each calls the command's own meaning. -/

namespace Sys2Proof.Machine

-- The commands of rule R103, in the order of the opcode table.
def exec (i : Instr) (s : State) : Host.Outcome State Fault Refusal :=
  match i with
  | .next => Sys2Proof.Machine.execNext s
  | .peek => Sys2Proof.Machine.execPeek s
  | .phmod proportion => Sys2Proof.Machine.execPhmod proportion s
  | .setwt w1 b1 w2 b2 => Sys2Proof.Machine.execSetwt w1 b1 w2 b2 s
  | .setfreq frequency => Sys2Proof.Machine.execSetfreq frequency s
  | .setnote note => Sys2Proof.Machine.execSetnote note s
  | .setnotesh note shift => Sys2Proof.Machine.execSetnotesh note shift s
  | .setgains g0 g1 g2 g3 g4 g5 g6 mix => Sys2Proof.Machine.execSetgains g0 g1 g2 g3 g4 g5 g6 mix s
  | .rdreg reg => Sys2Proof.Machine.execRdreg reg s

end Sys2Proof.Machine
end

