-- ==== Sys2Proof/Machine/Service.lean ====
section
/-! DEFINITION. The service of a port, the host's moves, which move is next, and how an instruction
is placed for the next step (rules R85, R104, R252, R253). -/

namespace Sys2Proof.Machine

/-- R104, R252, R253: the service of port P. A halted port and a port that waits do nothing; an
illegal header faults the port; a whole packet leaves `pend_P` and its command is performed. DEDUCED:
words beyond the packet stay (log entries 9, 10). -/
def State.servePort (s : State) (p : Port) : Host.Outcome State Fault Refusal :=
  match s.halted p with
  | true => .next s
  | false =>
    match decode p (s.pend p) with
    | .waiting => .next s
    | .illegal cause h => .next (s.illegalCommand p cause h)
    | .command i rest => exec i (s.setPend p rest)

/-- R104 and R253: whether port P has a step: it is not halted and holds an illegal header or a
whole packet. -/
def State.ready (s : State) (p : Port) : Bool :=
  match s.halted p with
  | true => false
  | false =>
    match decode p (s.pend p) with
    | .waiting => false
    | .illegal _ _ => true
    | .command _ _ => true

/-- The move made where the host has none left: the service of port A if it has a step, else of
port C. DESIGN CHOICE, log entry 8. -/
def State.idleMove (s : State) : Move := if s.ready .a then .serve .a else .serve .c

/-- R85: the move that comes next. -/
def State.nextMove (s : State) : Move :=
  match s.moves with
  | [] => s.idleMove
  | m :: _ => m

/-- The moves left once the next one is made. -/
def State.dropMove (s : State) : State := { s with moves := s.moves.tail }

/-- R85: one move, performed whole. -/
def State.perform (s : State) : Move → Host.Outcome State Fault Refusal
  | .deliver p w => .next (s.deliver p w)
  | .serve p => s.servePort p
  | .tableWrite addr v => s.hostWrite addr v
  | .consume p => .next (s.consume p)
  | .reset seeds => .next (s.resetInstance seeds)
  | .otherInstances ps => .next (s.setOtherPointers ps)

/-- R18 and R85: an ill-formed configuration is refused; else the next move is performed. -/
def State.stepOnce (s : State) : Host.Outcome State Fault Refusal :=
  match s.cfg.wellFormed with
  | false => .refused .illFormedConfig
  | true => s.dropMove.perform s.nextMove

/-- The packet of an instruction numbered as the opcode table numbers it, whole on the port its
opcode belongs to, that port able to perform it and served by the very next step (log entry 15). -/
def State.loadPacket (s : State) (nbits w : Nat) : State :=
  let p := tablePort (tableWord nbits w 0)
  let placed := s.setPend p (tablePacket nbits w)
  { placed with
    status := withoutFault p s.status
    moves := .serve p :: s.moves }

end Sys2Proof.Machine
end

