-- ==== Sys2Proof/Machine/Step.lean ====
section
/-! DEFINITION. One step of the machine (rule R85). -/

namespace Sys2Proof.Machine

/-- R85: one step. -/
def step (s : State) : Host.Outcome State Fault Refusal := s.stepOnce

/-- `s` with the instruction whose bits are `w` placed so that the very next step runs it (log
entry 15). -/
def State.withFetchWord (s : State) (nbits w : Nat) : State := s.loadPacket nbits w

end Sys2Proof.Machine
end

