-- ==== Sys2Proof/Machine/Assembler.lean ====
section
/-! DEFINITION. The assembler syntax of a command (rule R112), the register names (rule R231) and the
pseudo-instructions (rule R113). -/

namespace Sys2Proof.Machine

/-! ### Pseudo-instructions (R113) -/

/-- `SETHZ h` is `SETFREQ h * 65536`, for 0 ≤ h ≤ 65535. -/
def expandSethz (h : Nat) : Option Instr :=
  if h ≤ 65535 then some (.setfreq (BitVec.ofNat 32 (h * 65536))) else none

/-- `MUTE` is `SETGAINS 0, 0, 0, 0, 0, 0, 0, 0`. -/
def expandMute : Instr := .setgains 0#16 0#16 0#16 0#16 0#16 0#16 0#16 0#16

/-! ### Operands (R112) -/

/-- A numeric operand as written. -/
inductive Literal where
  /-- A decimal integer, optionally negative. -/
  | decimal (v : Int)
  /-- A hexadecimal integer `0x...`. -/
  | hexadecimal (v : Nat)
  deriving DecidableEq, Repr

/-- The value of a digit in base ten or sixteen. -/
def digitValue (base : Nat) (c : Char) : Option Nat :=
  let n := c.toNat
  let v :=
    if 48 ≤ n ∧ n ≤ 57 then n - 48
    else if 65 ≤ n ∧ n ≤ 70 then n - 55
    else if 97 ≤ n ∧ n ≤ 102 then n - 87
    else base
  if v < base then some v else none

/-- The value of a run of digits, continuing `acc`. -/
def digitsValue (base : Nat) : Nat → List Char → Option Nat
  | acc, [] => some acc
  | acc, c :: cs =>
    match digitValue base c with
    | some v => digitsValue base (acc * base + v) cs
    | none => none

/-- A numeric operand. -/
def literal? : List Char → Option Literal
  | [] => none
  | '0' :: 'x' :: d :: ds => (digitsValue 16 0 (d :: ds)).map .hexadecimal
  | '-' :: d :: ds => (digitsValue 10 0 (d :: ds)).map fun n => .decimal (-(n : Int))
  | d :: ds => (digitsValue 10 0 (d :: ds)).map fun n => .decimal (n : Int)

/-- A field read as unsigned: the value must be below `bound`. -/
def unsignedField (bound w : Nat) : Literal → Option (BitVec w)
  | .decimal v => if 0 ≤ v ∧ v < bound then some (BitVec.ofInt w v) else none
  | .hexadecimal v => if v < bound then some (BitVec.ofNat w v) else none

/-- A field read as signed: a decimal in its range, or a hexadecimal pattern of its width. -/
def signedField (w : Nat) : Literal → Option (BitVec w)
  | .decimal v =>
    if -(2 ^ (w - 1) : Int) ≤ v ∧ v < 2 ^ (w - 1) then some (BitVec.ofInt w v) else none
  | .hexadecimal v => if v < 2 ^ w then some (BitVec.ofNat w v) else none

/-- The register names and their numbers (R231). -/
def registerNames : List (String × Nat) :=
  [("PHASE0", 0x00), ("PHASE1", 0x01), ("PHASE2", 0x02), ("PHASE3", 0x03), ("PHASE4", 0x04),
    ("PHASE5", 0x05), ("PHASE6", 0x06)] ++
  [("INC0", 0x08), ("INC1", 0x09), ("INC2", 0x0A), ("INC3", 0x0B), ("INC4", 0x0C),
    ("INC5", 0x0D), ("INC6", 0x0E)] ++
  [("GAIN1_0", 0x10), ("GAIN1_1", 0x11), ("GAIN1_2", 0x12), ("GAIN1_3", 0x13), ("GAIN1_4", 0x14),
    ("GAIN1_5", 0x15), ("GAIN1_6", 0x16)] ++
  [("GAIN2_0", 0x18), ("GAIN2_1", 0x19), ("GAIN2_2", 0x1A), ("GAIN2_3", 0x1B), ("GAIN2_4", 0x1C),
    ("GAIN2_5", 0x1D), ("GAIN2_6", 0x1E)] ++
  [("WAVE1", 0x20), ("BASS1", 0x21), ("WAVE2", 0x22), ("BASS2", 0x23), ("STATUS", 0x30),
    ("CONFIG", 0x31), ("FHDR_A", 0x32), ("FHDR_C", 0x33)]

/-- A `<register>` operand: a name or a number (R112; the names FHDR_A and FHDR_C by R231, log entry
21). -/
def registerOperand (cs : List Char) : Option Half :=
  match registerNames.find? fun row => row.1.toList == cs with
  | some row => some (BitVec.ofNat 16 row.2)
  | none => (literal? cs).bind (unsignedField (2 ^ 16) 16)

/-! ### Lines (R112) -/

/-- The pieces of a text between separators. -/
def splitOn (sep : Char) : List Char → List (List Char)
  | [] => [[]]
  | c :: cs =>
    match splitOn sep cs with
    | [] => [[c]]
    | piece :: pieces => if c = sep then [] :: piece :: pieces else (c :: piece) :: pieces

/-- A text without the spaces at its ends. -/
def trimSpaces (cs : List Char) : List Char :=
  ((cs.dropWhile (· = ' ')).reverse.dropWhile (· = ' ')).reverse

/-- The operands of a line, separated by commas; a blank text holds none. -/
def operandTexts (cs : List Char) : List (List Char) :=
  match trimSpaces cs with
  | [] => []
  | d :: ds => (splitOn ',' (d :: ds)).map trimSpaces

/-- An optional port label and the text after it. -/
def portLabel : List Char → Option Port × List Char
  | 'A' :: ':' :: rest => (some .a, trimSpaces rest)
  | 'C' :: ':' :: rest => (some .c, trimSpaces rest)
  | rest => (none, rest)

/-- A drawbar or mix operand: u16 (R107). -/
def levelOperand (cs : List Char) : Option Half := (literal? cs).bind (unsignedField (2 ^ 16) 16)

/-- A SETWT operand: below 2^A. -/
def addressOperand (c : Config) (cs : List Char) : Option Word :=
  (literal? cs).bind (unsignedField c.space 32)

/-- A mnemonic with its operands' texts (R112, R113). -/
def assembleCommand (c : Config) (mnemonic : List Char) (ops : List (List Char)) :
    Option Instr :=
  if mnemonic = "NEXT".toList then
    match ops with
    | [] => some .next
    | _ => none
  else if mnemonic = "PEEK".toList then
    match ops with
    | [] => some .peek
    | _ => none
  else if mnemonic = "PHMOD".toList then
    match ops with
    | [p] => ((literal? p).bind (signedField 32)).map .phmod
    | _ => none
  else if mnemonic = "SETWT".toList then
    match ops.map (addressOperand c) with
    | [some w1, some b1, some w2, some b2] => some (.setwt w1 b1 w2 b2)
    | _ => none
  else if mnemonic = "SETFREQ".toList then
    match ops with
    | [f] => ((literal? f).bind (unsignedField (2 ^ 32) 32)).map .setfreq
    | _ => none
  else if mnemonic = "SETNOTE".toList then
    match ops with
    | [n] => ((literal? n).bind (signedField 16)).map .setnote
    | _ => none
  else if mnemonic = "SETNOTESH".toList then
    match ops with
    | [n, s] =>
      ((literal? n).bind (signedField 16)).bind fun note =>
        ((literal? s).bind (signedField 32)).map fun shift => .setnotesh note shift
    | _ => none
  else if mnemonic = "SETGAINS".toList then
    match ops.map levelOperand with
    | [some g0, some g1, some g2, some g3, some g4, some g5, some g6, some mix] =>
      some (.setgains g0 g1 g2 g3 g4 g5 g6 mix)
    | _ => none
  else if mnemonic = "RDREG".toList then
    match ops with
    | [r] => (registerOperand r).map .rdreg
    | _ => none
  else if mnemonic = "SETHZ".toList then
    match ops.map literal? with
    | [some (.decimal h)] => if 0 ≤ h then expandSethz h.toNat else none
    | [some (.hexadecimal h)] => expandSethz h
    | _ => none
  else if mnemonic = "MUTE".toList then
    match ops with
    | [] => some expandMute
    | _ => none
  else none

/-- A line: an optional port label, a mnemonic, operands (R112). Without a label the port is the one
the command is legal on. DESIGN CHOICE: a label naming the port on which R108 makes the command illegal
is accepted, and the labelled port returned (log entry 26). -/
def assembleLine (c : Config) (line : List Char) : Option (Port × Instr) :=
  let labelled := portLabel (trimSpaces line)
  let mnemonic := labelled.2.takeWhile (· ≠ ' ')
  let rest := labelled.2.dropWhile (· ≠ ' ')
  match assembleCommand c mnemonic (operandTexts rest) with
  | none => none
  | some i =>
    match labelled.1 with
    | some p => some (p, i)
    | none => some (i.opcode.port, i)

end Sys2Proof.Machine
end

