-- ==== Sys2Proof/Safety.lean ====
section
/-! DEFINITION. What claims about runs are stated in: the state after an outcome, the invariant every
step keeps, and when a run has ended well (R253). -/

namespace Sys2Proof

/-- The commands that advance the phases (R150, R152). -/
def Instr.advances : Instr → Bool
  | .next => true
  | .phmod _ => true
  | .peek => false
  | .setwt _ _ _ _ => false
  | .setfreq _ => false
  | .setnote _ => false
  | .setnotesh _ _ => false
  | .setgains _ _ _ _ _ _ _ _ => false
  | .rdreg _ => false

/-- The commands that program the increments (R187). -/
def Instr.setsFrequency : Instr → Bool
  | .setfreq _ => true
  | .setnote _ => true
  | .setnotesh _ _ => true
  | .next => false
  | .phmod _ => false
  | .peek => false
  | .setwt _ _ _ _ => false
  | .setgains _ _ _ _ _ _ _ _ => false
  | .rdreg _ => false

/-- The documented ranges of SETGAINS: levels 0 to 1023, mix 0 to 64 (R42, R200). Every other command
has no such contract. -/
def Instr.WithinContract : Instr → Prop
  | .setgains g0 g1 g2 g3 g4 g5 g6 mix =>
    g0.toNat ≤ 1023 ∧ g1.toNat ≤ 1023 ∧ g2.toNat ≤ 1023 ∧ g3.toNat ≤ 1023 ∧ g4.toNat ≤ 1023 ∧
      g5.toNat ≤ 1023 ∧ g6.toNat ≤ 1023 ∧ mix.toNat ≤ 64
  | .next => True
  | .phmod _ => True
  | .peek => True
  | .setwt _ _ _ _ => True
  | .setfreq _ => True
  | .setnote _ => True
  | .setnotesh _ _ => True
  | .rdreg _ => True

/-- R152 and R141: the offset a sample command reads at, `lo_32(proportion * N)` for PHMOD and 0 for
every other command. -/
def Instr.transientOffset (c : Config) : Instr → Word
  | .phmod proportion => BitVec.ofInt 32 (proportion.toInt * 2 ^ c.log2Cells)
  | .next => 0#32
  | .peek => 0#32
  | .setwt _ _ _ _ => 0#32
  | .setfreq _ => 0#32
  | .setnote _ => 0#32
  | .setnotesh _ _ => 0#32
  | .setgains _ _ _ _ _ _ _ _ => 0#32
  | .rdreg _ => 0#32

end Sys2Proof

namespace Sys2Proof.Machine

/-- The state an outcome leads to, if it is a next state. -/
def after : Host.Outcome State Fault Refusal → Option State
  | .next t => some t
  | .fault _ => none
  | .refused _ => none

/-- Commands performed one after another, stopping where one does not complete. -/
def runCommands : List Instr → State → Host.Outcome State Fault Refusal
  | [], s => .next s
  | i :: is, s =>
    match exec i s with
    | .next t => runCommands is t
    | .fault r => .fault r
    | .refused r => .refused r

/-- R42: the next step, if it performs a SETGAINS, performs one within its documented ranges. -/
def State.ServesContract (s : State) : Prop :=
  ∀ p i rest, s.nextMove = .serve p → decode p (s.pend p) = .command i rest → i.WithinContract

/-- R142: the index harmonic `i` reads at phases `p` and offset `off`, in the words of the rule: the
cell position of the 32-bit read phase, modulo N. -/
def State.indexAt (s : State) (p : Lanes Word) (off : Word) (i : Fin 7) : Nat :=
  (p[i].toNat + off.toNat) % 2 ^ 32 / 2 ^ 16 % 2 ^ s.cfg.log2Cells

/-- R73 and R143: where harmonic `i` reads its set-1 cell. -/
def State.cell1At (s : State) (p : Lanes Word) (off : Word) (i : Fin 7) : Nat :=
  ((if i = 6 then s.bass1 else s.wave1).toNat + s.indexAt p off i) % 2 ^ s.cfg.addrBits

/-- R73 and R143: where harmonic `i` reads its set-2 cell. -/
def State.cell2At (s : State) (p : Lanes Word) (off : Word) (i : Fin 7) : Nat :=
  ((if i = 6 then s.bass2 else s.wave2).toNat + s.indexAt p off i) % 2 ^ s.cfg.addrBits

/-- R141 and R144: the exact sum of the fourteen weighted reads, as one sum over the harmonics. -/
def State.sumAt (s : State) (p : Lanes Word) (off : Word) : Int :=
  ∑ i : Fin 7,
    ((s.tableRead (2 * i.val) (s.cell1At p off i)).toInt * s.gain1[i].toInt +
      (s.tableRead (2 * i.val + 1) (s.cell2At p off i)).toInt * s.gain2[i].toInt)

/-- R141 and R144: the product of the `n`-th of the fourteen reads: reads 2i and 2i + 1 are harmonic
i's cells of set 1 and set 2. -/
def State.readProduct (s : State) (p : Lanes Word) (off : Word) (n : Fin 14) : Int :=
  let i : Fin 7 := ⟨n.val / 2, by omega⟩
  if n.val % 2 = 0 then (s.tableRead n.val (s.cell1At p off i)).toInt * s.gain1[i].toInt
  else (s.tableRead n.val (s.cell2At p off i)).toInt * s.gain2[i].toInt

/-- R145 and R147: `w` is the response to the sum `acc`: floor(acc / 4) wrapped to 16 signed bits, as
a 32-bit word. -/
def RespondsTo (w : Word) (acc : Int) : Prop :=
  w.toInt = (acc / 4 + 2 ^ 15) % 2 ^ 16 - 2 ^ 15

/-- Every cell that a sample at phases `p` and offset `off` reads is backed by the platform. -/
def State.ReadsBacked (s : State) (p : Lanes Word) (off : Word) : Prop :=
  ∀ i : Fin 7, isMapped s.cfg (s.cell1At p off i) = true ∧
    isMapped s.cfg (s.cell2At p off i) = true

/-- R253: whether a run may be said to have ended well: a state in which a port is halted never is a
successful end, and a packet half delivered waits for its other words (R104). -/
def State.endedWell (s : State) : Bool :=
  !s.halted .a && !s.halted .c && (s.pendA.isEmpty && s.pendC.isEmpty)

/-- R38: harmonic i is exactly one octave below harmonic i - 1. -/
def State.OctaveStack (s : State) : Prop := ∀ i : Fin 7, s.inc[i] = s.inc[0] >>> i.val

/-- R42: what contract inputs keep of the gains: none negative, each pair within 35. -/
def State.GainsWithinContract (s : State) : Prop :=
  ∀ i : Fin 7, 0 ≤ s.gain1[i].toInt ∧ 0 ≤ s.gain2[i].toInt ∧
    s.gain1[i].toInt + s.gain2[i].toInt ≤ 35

/-- R253 to R256, R56: what the fault record of a port may hold. While the port runs, no cause and no
header; once halted, an illegal header of this port with its own cause, and no word pending. -/
structure State.FaultRecordOf (s : State) (p : Port) : Prop where
  running : s.halted p = false → causeField p s.status = 0#32 ∧ s.fhdr p = 0#32
  stopped : s.halted p = true → s.pend p = [] ∧
    ∃ cause, headerCause p (s.fhdr p) = some cause ∧ causeField p s.status = causeCode cause

/-- What every step keeps, from every state that has it: the octave stack (R38), A-bit pointers
(R45), the canonical form and the bounds of table memory (R70), the reserved bits of STATUS (R49)
and the fault records (R252 to R256). -/
structure State.Inv (s : State) : Prop where
  octaves : s.OctaveStack
  ownPointers : s.wave1.toNat < s.cfg.space ∧ s.bass1.toNat < s.cfg.space ∧
    s.wave2.toNat < s.cfg.space ∧ s.bass2.toNat < s.cfg.space
  otherPointers : ∀ p ∈ s.otherPointers, p.toNat < s.cfg.space
  tableForm : Memory.wf s.tmem
  tableBounds : ∀ x ∈ s.tmem, x.1 < s.cfg.space
  reservedBits : s.status &&& reservedMask = 0#32
  records : ∀ p, s.FaultRecordOf p

end Sys2Proof.Machine
end

