-- ==== Sys2Proof/Certificates/Slice0/Obligations.lean ====
section
/-! DEFINITION. The statements for the provers, rule by rule of spec/. -/

open Sys2Proof Sys2Proof.Machine

/-! ### Reset -/

/-- R54: what every register holds right after reset: the phases the seeds drawn, every other register
0, CONFIG {7, A, r, k}, packet buffers and streams empty. -/
def Obligations.PowerOnRegisters : Prop :=
  (∀ i : Fin 7, State.reset.phase[i] = Config.seed i.val ∧ State.reset.inc[i] = 0#32 ∧
    State.reset.gain1[i] = 0#8 ∧ State.reset.gain2[i] = 0#8) ∧
  State.reset.wave1 = 0#32 ∧ State.reset.bass1 = 0#32 ∧ State.reset.wave2 = 0#32 ∧
  State.reset.bass2 = 0#32 ∧ State.reset.status = 0#32 ∧ State.reset.fhdrA = 0#32 ∧
  State.reset.fhdrC = 0#32 ∧
  (State.reset.readReg 0x31#16).toNat = 7 * 2 ^ 24 + State.reset.cfg.addrBits * 2 ^ 16 +
    State.reset.cfg.log2Rate * 2 ^ 8 + State.reset.cfg.log2Cells ∧
  State.reset.pendA = [] ∧ State.reset.pendC = [] ∧ State.reset.respA = [] ∧
  State.reset.respC = []

/-- R281: a reset, performed as one step from any state, writes every piece of the instance's state to
its reset value, the phases to the seeds drawn for it, and leaves table memory alone. What is not of
the instance (the parameters, the other instances, the host's moves and the model's own counter of free
values) stays: that clause is the model's reading (DEDUCED, log entry 23). -/
def Obligations.ResetEventRestoresInstance : Prop :=
  ∀ (s : State) (seeds : Lanes Word) (ms : List Move),
    s.cfg.wellFormed = true → s.moves = .reset seeds :: ms →
    step s = .next
      { cfg := s.cfg, phase := seeds, inc := #v[0, 0, 0, 0, 0, 0, 0],
        gain1 := #v[0, 0, 0, 0, 0, 0, 0], gain2 := #v[0, 0, 0, 0, 0, 0, 0],
        wave1 := 0, bass1 := 0, wave2 := 0, bass2 := 0, status := 0, fhdrA := 0, fhdrC := 0,
        pendA := [], pendC := [], respA := [], respC := [], tmem := s.tmem,
        otherPointers := s.otherPointers, moves := ms, draws := s.draws }

/-- The invariant of the model holds right after reset. -/
def Obligations.PowerOnMeetsInvariant : Prop := State.reset.Inv

/-- The invariant of the model is kept by every step, from every state that has it: the octave stack,
A-bit pointers, canonical table memory inside the address space, reserved STATUS bits 0, and fault
records that tell the illegal header and its own cause. -/
def Obligations.EveryStepKeepsInvariant : Prop :=
  ∀ s t : State, s.Inv → step s = .next t → t.Inv

/-- R38: at every state reachable from reset, whatever the parameters, the seeds, table memory and the
moves of the host, `inc[i] = inc[0] >>u i`. -/
def Obligations.OctaveStackOnEveryRun : Prop :=
  ∀ (s : State) (seeds : Lanes Word) (n : Nat) (t : State),
    Sys2Proof.core.run n (s.resetInstance seeds) = .next t →
    ∀ i : Fin 7, t.inc[i] = t.inc[0] >>> i.val

/-! ### Sample commands -/

/-- R150: NEXT completes from every state; every phase advances by its increment modulo 2^32, the
response is the sample at the advanced phases, no other register and no memory changes (`draws` is the
model's own counter of free values, log entry 6; nothing is said of it). -/
def Obligations.NextAdvancesThenSamples : Prop :=
  encode .next = [0x00000001#32] ∧
  ∀ s : State, ∃ (t : State) (w : Word), exec .next s = .next t ∧
    t = { s with phase := t.phase, respA := s.respA ++ [w], draws := t.draws } ∧
    (∀ i : Fin 7, t.phase[i].toNat = (s.phase[i].toNat + s.inc[i].toNat) % 2 ^ 32) ∧
    RespondsTo w (s.sumAt t.phase 0#32)

/-- R151: PEEK completes from every state, responds with the sample at the phases as they stand and
writes no register (`draws` is the model's own counter of free values, log entry 6). -/
def Obligations.PeekSamplesInPlace : Prop :=
  encode .peek = [0x00000002#32] ∧
  ∀ s : State, ∃ (t : State) (w : Word), exec .peek s = .next t ∧
    t = { s with respA := s.respA ++ [w], draws := t.draws } ∧
    RespondsTo w (s.sumAt s.phase 0#32)

/-- R152: PHMOD completes from every state; the phases advance as for NEXT and the response is the
sample at the advanced phases plus `lo_32(proportion * N)` (`draws` is the model's own counter of free
values, log entry 6). -/
def Obligations.PhmodSamplesAtOffset : Prop :=
  (∀ proportion, encode (.phmod proportion) = [0x00000003#32, proportion]) ∧
  ∀ (s : State) (proportion : Word), ∃ (t : State) (w off : Word),
    exec (.phmod proportion) s = .next t ∧
    t = { s with phase := t.phase, respA := s.respA ++ [w], draws := t.draws } ∧
    (∀ i : Fin 7, t.phase[i].toNat = (s.phase[i].toNat + s.inc[i].toNat) % 2 ^ 32) ∧
    (off.toNat : Int) = proportion.toInt * 2 ^ s.cfg.log2Cells % 2 ^ 32 ∧
    RespondsTo w (s.sumAt t.phase off)

/-- R149: a sample command completes with a response and never changes the increments, the gains, the
pointers, STATUS or table memory. -/
def Obligations.SampleCommandsTouchNoSetting : Prop :=
  ∀ (s : State) (i : Instr), i.opcode.port = .a → ∃ t, exec i s = .next t ∧
    t.inc = s.inc ∧ t.gain1 = s.gain1 ∧ t.gain2 = s.gain2 ∧ t.wave1 = s.wave1 ∧
    t.bass1 = s.bass1 ∧ t.wave2 = s.wave2 ∧ t.bass2 = s.bass2 ∧ t.status = s.status ∧
    ∀ a, Memory.read t.tmem a = Memory.read s.tmem a

/-- R162: the PHMOD offset is never stored: PHMOD leaves the phases that NEXT would have left. -/
def Obligations.PhmodOffsetNeverStored : Prop :=
  ∀ (s : State) (proportion : Word), ∃ t u, exec (.phmod proportion) s = .next t ∧
    exec .next s = .next u ∧ t.phase = u.phase

/-- R167: `PHMOD 0` and NEXT from the same state are the same step. -/
def Obligations.PhmodZeroIsNext : Prop :=
  ∀ s : State, exec (.phmod 0#32) s = exec .next s

/-- R168: an offset of whole cycles is no offset: `PHMOD lo_32(m * 65536)` is NEXT, for every integer
m. -/
def Obligations.WholeCyclePhmodIsNext : Prop :=
  ∀ (s : State) (m : Int), s.cfg.wellFormed = true →
    exec (.phmod (BitVec.ofInt 32 (m * 65536))) s = exec .next s

/-- R163: commands of which n are NEXT or PHMOD, none a frequency command, advance each phase by
exactly n increments modulo 2^32, whatever PEEKs and port C commands stand among them. -/
def Obligations.AdvanceLaw : Prop :=
  ∀ (is : List Instr) (s : State), (∀ i ∈ is, i.setsFrequency = false) →
    ∃ t, runCommands is s = .next t ∧
      ∀ i : Fin 7, t.phase[i].toNat =
        (s.phase[i].toNat + is.countP Instr.advances * s.inc[i].toNat) % 2 ^ 32

/-- R165 where every cell read is backed (an unbacked cell reads afresh each time, R72): the PEEK
right after a NEXT responds with NEXT's word. -/
def Obligations.PeekAfterNextRepeats : Prop :=
  ∀ s : State, s.ReadsBacked s.advance.phase 0#32 →
    ∃ t u w, exec .next s = .next t ∧ exec .peek t = .next u ∧ t.respA = s.respA ++ [w] ∧
      u.respA = s.respA ++ [w, w]

/-- R166 where every cell read is backed: a PEEK, then any frequency commands, RDREGs and PEEKs, then
a PEEK: the first and the last respond alike. -/
def Obligations.PeekIsIdempotent : Prop :=
  ∀ (s : State) (is : List Instr), s.ReadsBacked s.phase 0#32 →
    (∀ i ∈ is, i = .peek ∨ i.setsFrequency = true ∨ ∃ reg, i = .rdreg reg) →
    ∃ t u v w, exec .peek s = .next t ∧ runCommands is t = .next u ∧ exec .peek u = .next v ∧
      t.respA = s.respA ++ [w] ∧ v.respA = u.respA ++ [w]

/-- R43: the gains reset to 0, and with every gain 0 every sample command returns 0 whatever the tables
and the phases hold. -/
def Obligations.ZeroGainsRespondZero : Prop :=
  (∀ (s : State) (seeds : Lanes Word) (i : Fin 7),
    (s.resetInstance seeds).gain1[i] = 0#8 ∧ (s.resetInstance seeds).gain2[i] = 0#8) ∧
  ∀ (s : State) (i : Instr), i.opcode.port = .a →
    (∀ j : Fin 7, s.gain1[j] = 0#8 ∧ s.gain2[j] = 0#8) →
    ∃ t, exec i s = .next t ∧ t.respA = s.respA ++ [0#32]

/-- R144: every product lies in [-16256, 16384], the sum of the fourteen in [-227584, 229376]; the
fourteen additions made in any order give that sum, and no partial sum on the way leaves the range. -/
def Obligations.AccumulatorNeverOverflows : Prop :=
  (∀ c g : Byte, -16256 ≤ c.toInt * g.toInt ∧ c.toInt * g.toInt ≤ 16384) ∧
  ∀ (s : State) (p : Lanes Word) (off : Word),
    -227584 ≤ s.mixSum p off ∧ s.mixSum p off ≤ 229376 ∧
    (∀ l : List (Fin 14), l.Perm (List.finRange 14) →
      l.foldl (fun acc n => acc + s.readProduct p off n) 0 = s.mixSum p off) ∧
    ∀ l : List (Fin 14), l.Nodup →
      -227584 ≤ l.foldl (fun acc n => acc + s.readProduct p off n) 0 ∧
      l.foldl (fun acc n => acc + s.readProduct p off n) 0 ≤ 229376

/-- R146 (b): under the contract bound of the gains the fourteen-read sum, at the phases the command
leaves and the offset it reads at, lies in [-31360, 31115], and the response is the floor of that sum
divided by 4, never wrapped, in [-7840, 7778]. -/
def Obligations.ContractSampleRange : Prop :=
  ∀ (s : State) (i : Instr), i.opcode.port = .a → s.GainsWithinContract →
    ∃ t w, exec i s = .next t ∧ t.respA = s.respA ++ [w] ∧
      t.phase = (if i.advances then s.advance.phase else s.phase) ∧
      -31360 ≤ s.sumAt t.phase (i.transientOffset s.cfg) ∧
      s.sumAt t.phase (i.transientOffset s.cfg) ≤ 31115 ∧
      w.toInt = s.sumAt t.phase (i.transientOffset s.cfg) / 4 ∧
      -7840 ≤ w.toInt ∧ w.toInt ≤ 7778

/-- R142: the index is bits 16+k-1 to 16 of the read phase (0 for k = 0); the other bits of the read
phases never affect the index, nor the sample. -/
def Obligations.IndexIsCellPositionBits : Prop :=
  ∀ (c : Config) (q : Word),
    tableIndex c q = (q.extractLsb' 16 c.log2Cells).toNat ∧
    (c.log2Cells = 0 → tableIndex c q = 0) ∧
    (∀ q' : Word, (∀ b, 16 ≤ b → b < 16 + c.log2Cells → q'.getLsbD b = q.getLsbD b) →
      tableIndex c q' = tableIndex c q) ∧
    ∀ (s : State) (p p' : Lanes Word) (off : Word), s.cfg = c →
      (∀ (i : Fin 7) (b : Nat), 16 ≤ b → b < 16 + c.log2Cells →
        (p'[i] + off).getLsbD b = (p[i] + off).getLsbD b) →
      s.mix p' off = s.mix p off

/-- R75: the referenced region of a pointer is {lo_A(p + j) : 0 ≤ j < N}, the referenced set the union
over the four pointers, and a sample command reads no other cell: table memories that agree on the
referenced set give the same step. -/
def Obligations.SamplesReadOnlyReferencedCells : Prop :=
  (∀ (c : Config) (p : Word) (a : Nat), isReferencedBy c p a = true ↔
    ∃ j, j < 2 ^ c.log2Cells ∧ (p.toNat + j) % 2 ^ c.addrBits = a) ∧
  ∀ (s : State) (m : List Host.Cell) (i : Instr), i.opcode.port = .a →
    (∀ a, (isReferencedBy s.cfg s.wave1 a = true ∨ isReferencedBy s.cfg s.bass1 a = true ∨
        isReferencedBy s.cfg s.wave2 a = true ∨ isReferencedBy s.cfg s.bass2 a = true) →
      Memory.read m a = Memory.read s.tmem a) →
    ∃ t, exec i s = .next t ∧ exec i { s with tmem := m } = .next { t with tmem := m }

/-! ### Table memory and the host -/

/-- R72: a read of a backed address gives the byte there; of another address, the free value of that
draw, of which nothing is known (log entry 6). -/
def Obligations.TableReadGivesCellOrDraw : Prop :=
  ∀ (s : State) (n a : Nat),
    (isMapped s.cfg a = true → s.tableRead n a = Memory.read s.tmem a) ∧
    (isMapped s.cfg a = false → s.tableRead n a = Config.freeCell (s.draws + n))

/-- R73: the address of a cell is `lo_A(p + idx)`; one past the top is 0. -/
def Obligations.CellAddressWraps : Prop :=
  ∀ (c : Config) (p : Word) (idx : Nat),
    cellAddress c p idx = (p.toNat + idx) % 2 ^ c.addrBits ∧
    (p.toNat + idx = 2 ^ c.addrBits → cellAddress c p idx = 0)

/-- R81: a host write to a backed cell outside the referenced set of every instance sets that cell,
leaves every other byte as it was and changes nothing else. No other host write is a move: outside the
address space, which does not exist (R70), it faults; to an unbacked cell, or to a referenced one, it
is refused. R81 gives those writes no move; the named stops are the model's choice (DESIGN CHOICE, log
entry 12). -/
def Obligations.HostWriteMove : Prop :=
  ∀ (s : State) (a : Nat) (v : Byte) (ms : List Move),
    s.cfg.wellFormed = true → s.moves = .tableWrite a v :: ms →
    s.tmem.Pairwise (fun x y => x.1 < y.1) →
    (isMapped s.cfg a = true →
      (∀ p ∈ [s.wave1, s.bass1, s.wave2, s.bass2] ++ s.otherPointers,
        ∀ j, j < 2 ^ s.cfg.log2Cells → (p.toNat + j) % 2 ^ s.cfg.addrBits ≠ a) →
      ∃ t, step s = .next t ∧ t = { s with moves := ms, tmem := t.tmem } ∧
        Memory.read t.tmem a = v ∧ ∀ b, b ≠ a → Memory.read t.tmem b = Memory.read s.tmem b) ∧
    (isMapped s.cfg a = true →
      (∃ p ∈ [s.wave1, s.bass1, s.wave2, s.bass2] ++ s.otherPointers,
        ∃ j, j < 2 ^ s.cfg.log2Cells ∧ (p.toNat + j) % 2 ^ s.cfg.addrBits = a) →
      step s = .refused (.hostWriteToReferencedCell a)) ∧
    (a < 2 ^ s.cfg.addrBits → isMapped s.cfg a = false →
      step s = .refused (.hostWriteToUnmappedCell a)) ∧
    (2 ^ s.cfg.addrBits ≤ a → step s = .fault (.hostWriteOutsideTableMemory a))

/-- A host write that is allowed is never heard by the sample command after it: same phases, same
responses as without the write. -/
def Obligations.AllowedHostWriteIsInaudible : Prop :=
  ∀ (s u : State) (a : Nat) (v : Byte) (i : Instr), i.opcode.port = .a →
    s.hostWrite a v = .next u →
    ∃ t, exec i s = .next t ∧ exec i u = .next { t with tmem := u.tmem }

/-- R71: table memory changes in no step but a host write. -/
def Obligations.OnlyHostWritesChangeTableMemory : Prop :=
  ∀ s t : State, step s = .next t → (∀ a v, s.nextMove ≠ .tableWrite a v) → t.tmem = s.tmem

/-! ### Setters -/

/-- R183: SETWT completes in every well-formed configuration, writes the four pointers with the low A
bits of its operand words and sets TBL_SET; nothing else changes. -/
def Obligations.SetwtInstallsPointers : Prop :=
  (∀ w1 b1 w2 b2, encode (.setwt w1 b1 w2 b2) = [0x00000010#32, w1, b1, w2, b2]) ∧
  ∀ (s : State) (w1 b1 w2 b2 : Word), s.cfg.wellFormed = true →
    ∃ t, exec (.setwt w1 b1 w2 b2) s = .next t ∧
      t = { s with
        wave1 := t.wave1, bass1 := t.bass1, wave2 := t.wave2, bass2 := t.bass2,
        status := s.status ||| 1#32 } ∧
      t.wave1.toNat = w1.toNat % 2 ^ s.cfg.addrBits ∧
      t.bass1.toNat = b1.toNat % 2 ^ s.cfg.addrBits ∧
      t.wave2.toNat = w2.toNat % 2 ^ s.cfg.addrBits ∧
      t.bass2.toNat = b2.toNat % 2 ^ s.cfg.addrBits

/-- R186, R187, R188: SETFREQ completes from every state, writes the seven increments of its frequency
in one step and sets FREQ_SET; nothing else changes. -/
def Obligations.SetfreqWritesOctaveStack : Prop :=
  (∀ f, encode (.setfreq f) = [0x00000011#32, f]) ∧
  ∀ (s : State) (f : Word), ∃ t, exec (.setfreq f) s = .next t ∧
    t = { s with inc := t.inc, status := s.status ||| 2#32 } ∧
    ∀ i : Fin 7, t.inc[i].toNat =
      (if s.cfg.log2Rate ≤ s.cfg.log2Cells
        then f.toNat * 2 ^ (s.cfg.log2Cells - s.cfg.log2Rate) % 2 ^ 32
        else f.toNat / 2 ^ (s.cfg.log2Rate - s.cfg.log2Cells)) / 2 ^ i.val

/-- R186: the two branches of `Inc0`, and that both give `lo_32(floor(f * N / R))`. -/
def Obligations.IncrementIsExactRatio : Prop :=
  ∀ (c : Config) (f : Word),
    (c.log2Rate ≤ c.log2Cells →
      (firstIncrement c f).toNat = f.toNat * 2 ^ (c.log2Cells - c.log2Rate) % 2 ^ 32) ∧
    (c.log2Cells < c.log2Rate →
      (firstIncrement c f).toNat = f.toNat / 2 ^ (c.log2Rate - c.log2Cells)) ∧
    (firstIncrement c f).toNat = f.toNat * 2 ^ c.log2Cells / 2 ^ c.log2Rate % 2 ^ 32

/-- R189, R190: SETNOTE completes from every state; it is SETFREQ of the frequency NTF gives at the
biased note `lo_16(note + 96)`, so it writes the increments and FREQ_SET and nothing else. -/
def Obligations.SetnoteIsSetfreqOfNote : Prop :=
  (∀ note : Half, encode (.setnote note) = [note ++ 0x0012#16]) ∧
  ∀ (s : State) (note : Half), ∃ (b : Half) (t : State),
    (b.toNat : Int) = (note.toInt + 96) % 2 ^ 16 ∧
    exec (.setnote note) s = .next t ∧ exec (.setfreq (noteFrequency s.cfg b)) s = .next t ∧
    t = { s with inc := t.inc, status := s.status ||| 2#32 }

/-- R191, R192: SETNOTESH completes from every state; it is SETFREQ of the detuned frequency
`lo_32(f0 + tdiv(f0 * shift, 1023))`, so it writes the increments and FREQ_SET and nothing else. -/
def Obligations.SetnoteshIsSetfreqOfDetune : Prop :=
  (∀ (note : Half) (shift : Word), encode (.setnotesh note shift) = [note ++ 0x0013#16, shift]) ∧
  ∀ (s : State) (note : Half) (shift : Word), ∃ (b : Half) (f0 f : Word) (t : State),
    (b.toNat : Int) = (note.toInt + 96) % 2 ^ 16 ∧ f0 = noteFrequency s.cfg b ∧
    (f.toNat : Int) = (f0.toNat + Int.tdiv (f0.toNat * shift.toInt) 1023) % 2 ^ 32 ∧
    exec (.setnotesh note shift) s = .next t ∧ exec (.setfreq f) s = .next t ∧
    t = { s with inc := t.inc, status := s.status ||| 2#32 }

/-- R192, corner cases: shift 0 is no detune, 1023 doubles modulo 2^32, -1023 gives 0. -/
def Obligations.DetuneCornerCases : Prop :=
  ∀ f0 : Word, detuned f0 0#32 = f0 ∧ (detuned f0 1023#32).toNat = 2 * f0.toNat % 2 ^ 32 ∧
    detuned f0 (-1023#32) = 0#32

/-- R200 to R203: SETGAINS completes from every state, writes the fourteen gains in one step, drawbar
g_(6-i) driving harmonic i, and sets GAIN_SET; nothing else changes. -/
def Obligations.SetgainsWritesGains : Prop :=
  (∀ g0 g1 g2 g3 g4 g5 g6 mix : Half, encode (.setgains g0 g1 g2 g3 g4 g5 g6 mix) =
    [0x00000014#32, g1 ++ g0, g3 ++ g2, g5 ++ g4, mix ++ g6]) ∧
  ∀ (s : State) (g0 g1 g2 g3 g4 g5 g6 mix : Half), ∃ t,
    exec (.setgains g0 g1 g2 g3 g4 g5 g6 mix) s = .next t ∧
    t = { s with gain1 := t.gain1, gain2 := t.gain2, status := s.status ||| 4#32 } ∧
    ∀ i : Fin 7,
      t.gain1[i].toInt =
        ((#v[g6, g5, g4, g3, g2, g1, g0][i].toNat *
            Int.tdiv (36 * (64 - mix.toNat)) 64) / 1024 + 2 ^ 7) % 2 ^ 8 - 2 ^ 7 ∧
      t.gain2[i].toInt =
        ((#v[g6, g5, g4, g3, g2, g1, g0][i].toNat *
            Int.tdiv (36 * mix.toNat) 64) / 1024 + 2 ^ 7) % 2 ^ 8 - 2 ^ 7

/-- R205, R207: with contract inputs both scales lie in [0, 36] and sum to 36, or to 35 exactly when
36 * mix is no multiple of 64; every gain lies in [0, 35] and none is reduced. -/
def Obligations.ContractGainsNeverWrap : Prop :=
  ∀ g mix : Half, g.toNat ≤ 1023 → mix.toNat ≤ 64 →
    0 ≤ scaleOne mix ∧ scaleOne mix ≤ 36 ∧ 0 ≤ scaleTwo mix ∧ scaleTwo mix ≤ 36 ∧
    scaleOne mix + scaleTwo mix = (if 36 * mix.toNat % 64 = 0 then 36 else 35) ∧
    (gainValue g (scaleOne mix)).toInt = g.toNat * scaleOne mix / 1024 ∧
    (gainValue g (scaleTwo mix)).toInt = g.toNat * scaleTwo mix / 1024 ∧
    0 ≤ (gainValue g (scaleOne mix)).toInt ∧ (gainValue g (scaleOne mix)).toInt ≤ 35 ∧
    0 ≤ (gainValue g (scaleTwo mix)).toInt ∧ (gainValue g (scaleTwo mix)).toInt ≤ 35

/-- R211: a SETGAINS with contract inputs leaves `gain1[i] + gain2[i] ≤ 35` at every harmonic. -/
def Obligations.ContractGainBudget : Prop :=
  ∀ (s : State) (g0 g1 g2 g3 g4 g5 g6 mix : Half),
    (Instr.setgains g0 g1 g2 g3 g4 g5 g6 mix).WithinContract →
    ∃ t, exec (.setgains g0 g1 g2 g3 g4 g5 g6 mix) s = .next t ∧ t.GainsWithinContract

/-- R42: on every run from reset, whatever the parameters, the tables and the moves, in which every
SETGAINS performed has its inputs in the documented ranges, the gains stay within the contract. -/
def Obligations.GainContractOnEveryRun : Prop :=
  ∀ (s : State) (seeds : Lanes Word) (n : Nat) (t : State),
    (∀ m u, m < n → Sys2Proof.core.run m (s.resetInstance seeds) = .next u → u.ServesContract) →
    Sys2Proof.core.run n (s.resetInstance seeds) = .next t →
    ∀ i : Fin 7, 0 ≤ t.gain1[i].toInt ∧ 0 ≤ t.gain2[i].toInt ∧
      t.gain1[i].toInt + t.gain2[i].toInt ≤ 35

/-- R208: mix 0 leaves every gain2 at 0, mix 64 every gain1. -/
def Obligations.CrossfadeEnds : Prop :=
  ∀ (s : State) (g0 g1 g2 g3 g4 g5 g6 : Half),
    (∃ t, exec (.setgains g0 g1 g2 g3 g4 g5 g6 0#16) s = .next t ∧
      ∀ i : Fin 7, t.gain2[i] = 0#8) ∧
    (∃ t, exec (.setgains g0 g1 g2 g3 g4 g5 g6 64#16) s = .next t ∧
      ∀ i : Fin 7, t.gain1[i] = 0#8)

/-- R181, R182: a setter completes, touches no phase and no table memory and appends no response. -/
def Obligations.SettersLeavePhasesAndStreams : Prop :=
  ∀ (s : State) (i : Instr), i.opcode.port = .c → (∀ reg, i ≠ .rdreg reg) →
    ∃ t, exec i s = .next t ∧ t.phase = s.phase ∧ t.respA = s.respA ∧ t.respC = s.respC ∧
      ∀ a, Memory.read t.tmem a = Memory.read s.tmem a

/-- R87, R180: a step changes the increments, the gains and the pointers only as one whole port C
command does (a reset apart): no step leaves part of a setter's writes. -/
def Obligations.SettersAreNeverTorn : Prop :=
  ∀ s t : State, step s = .next t → (∀ seeds, s.nextMove ≠ .reset seeds) →
    (t.inc = s.inc ∧ t.gain1 = s.gain1 ∧ t.gain2 = s.gain2 ∧ t.wave1 = s.wave1 ∧
      t.bass1 = s.bass1 ∧ t.wave2 = s.wave2 ∧ t.bass2 = s.bass2) ∨
    ∃ i rest, i.opcode.port = .c ∧ decode .c s.pendC = .command i rest ∧
      exec i { s with moves := s.moves.tail, pendC := rest } = .next t

/-! ### Readback -/

/-- R230, R231, R234: RDREG completes from every state, appends the register's value to the port C
stream and changes nothing else. -/
def Obligations.RdregReadsRegister : Prop :=
  (∀ reg : Half, encode (.rdreg reg) = [reg ++ 0x0020#16]) ∧
  ∀ (s : State) (reg : Half), ∃ v : Word,
    exec (.rdreg reg) s = .next { s with respC := s.respC ++ [v] } ∧
    (∀ i : Fin 7,
      (reg.toNat = 0x00 + i.val → v = s.phase[i]) ∧ (reg.toNat = 0x08 + i.val → v = s.inc[i]) ∧
      (reg.toNat = 0x10 + i.val → v.toInt = s.gain1[i].toInt) ∧
      (reg.toNat = 0x18 + i.val → v.toInt = s.gain2[i].toInt)) ∧
    (reg = 0x20#16 → v = s.wave1) ∧ (reg = 0x21#16 → v = s.bass1) ∧
    (reg = 0x22#16 → v = s.wave2) ∧ (reg = 0x23#16 → v = s.bass2) ∧
    (reg = 0x30#16 → v = s.status) ∧ (reg = 0x31#16 → v = configWord s.cfg) ∧
    (reg = 0x32#16 → v = s.fhdrA) ∧ (reg = 0x33#16 → v = s.fhdrC)

/-- R232: every other register number reads 0 and is not illegal. -/
def Obligations.ReservedRegistersReadZero : Prop :=
  ∀ (s : State) (reg : Half),
    (reg.toNat = 0x07 ∨ reg.toNat = 0x0F ∨ reg.toNat = 0x17 ∨ reg.toNat = 0x1F ∨
      (0x24 ≤ reg.toNat ∧ reg.toNat ≤ 0x2F) ∨ 0x34 ≤ reg.toNat) →
    headerCause .c (reg ++ 0x0020#16) = none ∧
    exec (.rdreg reg) s = .next { s with respC := s.respC ++ [0#32] }

/-- R50: CONFIG is {7, A, r, k}, and no step changes it. -/
def Obligations.ConfigIsHardwired : Prop :=
  (∀ c : Config, c.wellFormed = true → (configWord c).toNat =
    7 * 2 ^ 24 + c.addrBits * 2 ^ 16 + c.log2Rate * 2 ^ 8 + c.log2Cells) ∧
  ∀ s t : State, step s = .next t → t.readReg 0x31#16 = s.readReg 0x31#16

/-! ### Encoding -/

/-- Decoding an encoded command on its own port gives it back, with the words after it, for every
command and every operand value; on the other port it is illegal by WRONG_PORT. -/
def Obligations.DecodeOfEncode : Prop :=
  ∀ (i : Instr) (rest : List Word),
    decode i.opcode.port (encode i ++ rest) = .command i rest ∧
    ∀ p, p ≠ i.opcode.port → ∃ h, decode p (encode i ++ rest) = .illegal .wrongPort h

/-- A command is decoded from exactly one packet: its encoding, on its own port. -/
def Obligations.EncodeOfDecode : Prop :=
  ∀ (p : Port) (ws rest : List Word) (i : Instr), decode p ws = .command i rest →
    ws = encode i ++ rest ∧ i.opcode.port = p

/-- R114: the spec's encodings decode to the commands they stand for, and its illegal examples are
illegal. -/
def Obligations.SpecEncodingsDecode : Prop :=
  decode .a [0x00000001#32] = .command .next [] ∧
  decode .a [0x00000002#32] = .command .peek [] ∧
  decode .a [0x00000003#32, 0x00004000#32] = .command (.phmod 0x4000#32) [] ∧
  decode .a [0x00000003#32, 0xFFFF0000#32] = .command (.phmod (-65536#32)) [] ∧
  decode .c [0x00000010#32, 0x00000000#32, 0x00000008#32, 0x00000010#32, 0x00000018#32] =
    .command (.setwt 0#32 8#32 16#32 24#32) [] ∧
  decode .c [0x00000011#32, 0x00020000#32] = .command (.setfreq 0x20000#32) [] ∧
  decode .c [0xFFA20012#32] = .command (.setnote (-94#16)) [] ∧
  decode .c [0xFFA20013#32, 0x000003FF#32] = .command (.setnotesh (-94#16) 1023#32) [] ∧
  decode .c [0x00000014#32, 0x000003FF#32, 0x00000000#32, 0x00000000#32, 0x000003FF#32] =
    .command (.setgains 1023#16 0#16 0#16 0#16 0#16 0#16 1023#16 0#16) [] ∧
  decode .c [0x00000014#32, 0x00020001#32, 0x00040003#32, 0x00060005#32, 0x00200007#32] =
    .command (.setgains 1#16 2#16 3#16 4#16 5#16 6#16 7#16 32#16) [] ∧
  decode .c [0x00080020#32] = .command (.rdreg 0x08#16) [] ∧
  decode .c [0x00300020#32] = .command (.rdreg 0x30#16) [] ∧
  (∀ p, headerCause p 0x00000000#32 = some .badOpcode) ∧
  headerCause .a 0x00000101#32 = some .badField ∧ headerCause .a 0x00010001#32 = some .badField ∧
  headerCause .a 0x00000011#32 = some .wrongPort

/-- R109: a header is illegal on a port exactly where its opcode is none of the port's, RSV is not 0, or
IMM16 is not 0 for an opcode other than SETNOTE, SETNOTESH, RDREG; the service of a port that holds
one raises the illegal-command fault. -/
def Obligations.HeaderIllegalExactly : Prop :=
  (∀ (s : State) (p : Port) (h : Word) (ws : List Word) (cause : Cause),
    s.halted p = false → s.pend p = h :: ws → decode p (h :: ws) = .illegal cause h →
    s.servePort p = .next (s.illegalCommand p cause h)) ∧
  ∀ (p : Port) (h : Word) (ws : List Word), (∃ cause, decode p (h :: ws) = .illegal cause h) ↔
    ((match p with
      | .a => h.extractLsb' 0 8 ∉ [0x01#8, 0x02#8, 0x03#8]
      | .c => h.extractLsb' 0 8 ∉ [0x10#8, 0x11#8, 0x12#8, 0x13#8, 0x14#8, 0x20#8]) ∨
      h.extractLsb' 8 8 ≠ 0#8 ∨
      (h.extractLsb' 16 16 ≠ 0#16 ∧ h.extractLsb' 0 8 ∉ [0x12#8, 0x13#8, 0x20#8]))

/-- R254, R255: the cause of an illegal header, by its condition; exactly one applies. The codes are 1,
2 and 3. -/
def Obligations.CauseByCondition : Prop :=
  (causeCode .badOpcode = 1#32 ∧ causeCode .wrongPort = 2#32 ∧ causeCode .badField = 3#32) ∧
  ∀ (p : Port) (h : Word),
    (headerCause p h = some .badOpcode ↔
      h.extractLsb' 0 8 ∉ [0x01#8, 0x02#8, 0x03#8, 0x10#8, 0x11#8, 0x12#8, 0x13#8, 0x14#8, 0x20#8]) ∧
    (headerCause p h = some .wrongPort ↔
      match p with
      | .a => h.extractLsb' 0 8 ∈ [0x10#8, 0x11#8, 0x12#8, 0x13#8, 0x14#8, 0x20#8]
      | .c => h.extractLsb' 0 8 ∈ [0x01#8, 0x02#8, 0x03#8]) ∧
    (headerCause p h = some .badField ↔
      (match p with
        | .a => h.extractLsb' 0 8 ∈ [0x01#8, 0x02#8, 0x03#8]
        | .c => h.extractLsb' 0 8 ∈ [0x10#8, 0x11#8, 0x12#8, 0x13#8, 0x14#8, 0x20#8]) ∧
      (h.extractLsb' 8 8 ≠ 0#8 ∨
        (h.extractLsb' 16 16 ≠ 0#16 ∧ h.extractLsb' 0 8 ∉ [0x12#8, 0x13#8, 0x20#8])))

/-- R77: the byte view of a word is little-endian: byte 0 is bits 7:0, byte 3 bits 31:24. -/
def Obligations.ByteViewIsLittleEndian : Prop :=
  (∀ b0 b1 b2 b3 : Byte, (wordOfBytes b0 b1 b2 b3).toNat =
    b0.toNat + b1.toNat * 2 ^ 8 + b2.toNat * 2 ^ 16 + b3.toNat * 2 ^ 24) ∧
  ∀ w : Word, wordOfBytes (byteOfWord w 0) (byteOfWord w 1) (byteOfWord w 2) (byteOfWord w 3) = w

/-- R113: SETHZ h is SETFREQ h * 65536 for 0 ≤ h ≤ 65535 and nothing beyond; MUTE completes and
leaves every gain at 0. -/
def Obligations.PseudoInstructionsExpand : Prop :=
  (∀ h : Nat, h ≤ 65535 → ∃ f : Word, expandSethz h = some (.setfreq f) ∧ f.toNat = h * 65536) ∧
  (∀ h : Nat, 65535 < h → expandSethz h = none) ∧
  expandMute = .setgains 0#16 0#16 0#16 0#16 0#16 0#16 0#16 0#16 ∧
  ∀ s : State, ∃ t, exec expandMute s = .next t ∧
    ∀ i : Fin 7, t.gain1[i] = 0#8 ∧ t.gain2[i] = 0#8

/-! ### Ports, packets and the illegal-command fault -/

/-- A step runs the decoded command: where the next move serves a port that is not halted and holds a
whole packet, the step is `exec` of that command at the state with the move made and the packet gone
from the port. That words behind the packet stay on the port, where R104 says `pend_P` becomes empty, is
the model's reading (DEDUCED, log entry 10). -/
def Obligations.StepRunsDecodedCommand : Prop :=
  ∀ (s : State) (p : Port) (i : Instr) (rest : List Word),
    s.cfg.wellFormed = true → s.nextMove = .serve p → s.halted p = false →
    decode p (s.pend p) = .command i rest →
    step s = exec i ({ s with moves := s.moves.tail }.setPend p rest)

/-- R104: a word delivered to a port that is not halted joins its packet, and nothing else changes. -/
def Obligations.DeliveryJoinsPacket : Prop :=
  ∀ (s : State) (w : Word) (ms : List Move), s.cfg.wellFormed = true →
    (s.moves = .deliver .a w :: ms → s.halted .a = false →
      step s = .next { s with moves := ms, pendA := s.pendA ++ [w] }) ∧
    (s.moves = .deliver .c w :: ms → s.halted .c = false →
      step s = .next { s with moves := ms, pendC := s.pendC ++ [w] })

/-- R104: a port whose packet has a legal header and too few operand words waits: its service changes
nothing and is no fault. -/
def Obligations.IncompletePacketWaits : Prop :=
  ∀ (s : State) (p : Port) (h : Word) (ws : List Word) (o : Opcode) (ms : List Move),
    s.cfg.wellFormed = true → s.moves = .serve p :: ms → s.pend p = h :: ws →
    headerCause p h = none → Opcode.ofCode? (headerOpc h) = some o → ws.length < o.operandWords →
    step s = .next { s with moves := ms }

/-- R252: the illegal-command fault: FAULT_P and CAUSE_P and FHDR_P are written, `pend_P` emptied, no
other bit of STATUS and nothing else of the machine changes, the other port included. The fields are
told by their bits (R49: FAULT_A 3, FAULT_C 4, CAUSE_A 10:8, CAUSE_C 14:12) and the causes by their
codes (R254: 1, 2, 3), and the model's own readers of the fields read those bits. -/
def Obligations.IllegalCommandIsRecorded : Prop :=
  (∀ s : State, s.halted .a = s.status.getLsbD 3 ∧ s.halted .c = s.status.getLsbD 4 ∧
    (causeField .a s.status).toNat = (s.status.extractLsb' 8 3).toNat ∧
    (causeField .c s.status).toNat = (s.status.extractLsb' 12 3).toNat) ∧
  ∀ (s : State) (p : Port) (cause : Cause) (h : Word) (ws : List Word) (ms : List Move),
    s.cfg.wellFormed = true → s.moves = .serve p :: ms → s.halted p = false →
    s.pend p = h :: ws → headerCause p h = some cause →
    ∃ t, step s = .next t ∧ t.halted p = true ∧ causeField p t.status = causeCode cause ∧
      t.status.getLsbD (match p with | .a => 3 | .c => 4) = true ∧
      t.status.extractLsb' (match p with | .a => 8 | .c => 12) 3 =
        (match cause with | .badOpcode => 1#3 | .wrongPort => 2#3 | .badField => 3#3) ∧
      (∀ b, (match p with
          | .a => b ≠ 3 ∧ ¬ (8 ≤ b ∧ b ≤ 10)
          | .c => b ≠ 4 ∧ ¬ (12 ≤ b ∧ b ≤ 14)) →
        t.status.getLsbD b = s.status.getLsbD b) ∧
      t = match p with
        | .a => { s with moves := ms, status := t.status, fhdrA := h, pendA := [] }
        | .c => { s with moves := ms, status := t.status, fhdrC := h, pendC := [] }

/-- R253: a halted port performs nothing and a word delivered to it is discarded; the state is no
successful end; and no step but a reset clears the port's fault record. -/
def Obligations.HaltedPortIsStuckUntilReset : Prop :=
  ∀ (s : State) (p : Port), s.halted p = true →
    s.endedWell = false ∧
    (∀ ms, s.cfg.wellFormed = true → s.moves = .serve p :: ms →
      step s = .next { s with moves := ms }) ∧
    (∀ w ms, s.cfg.wellFormed = true → s.moves = .deliver p w :: ms →
      step s = .next { s with moves := ms }) ∧
    ∀ t, step s = .next t → (∀ seeds, s.nextMove ≠ .reset seeds) →
      t.halted p = true ∧ causeField p t.status = causeField p s.status ∧ t.fhdr p = s.fhdr p

/-- R86, R92: words a port has received are never lost: only the port's own service, or a reset,
takes a word away. -/
def Obligations.PendingWordsAreNeverLost : Prop :=
  ∀ (s t : State) (p : Port), step s = .next t → (∀ seeds, s.nextMove ≠ .reset seeds) →
    s.nextMove ≠ .serve p → s.pend p <+: t.pend p

/-- R86, R147: a response stream only grows at its end, by at most one word a step, unless the host
consumes from it or resets the instance. -/
def Obligations.ResponsesAppendInOrder : Prop :=
  ∀ (s t : State) (p : Port), step s = .next t → (∀ seeds, s.nextMove ≠ .reset seeds) →
    s.nextMove ≠ .consume p → t.resp p = s.resp p ∨ ∃ w, t.resp p = s.resp p ++ [w]

/-- R49: no step but a reset clears a set bit or a fault bit of STATUS. -/
def Obligations.StatusBitsAreSticky : Prop :=
  ∀ (s t : State) (b : Nat), step s = .next t → (∀ seeds, s.nextMove ≠ .reset seeds) → b < 5 →
    s.status.getLsbD b = true → t.status.getLsbD b = true

/-- R36, R90: a step other than a reset changes a phase only by performing NEXT or PHMOD on port A. -/
def Obligations.PhasesChangeOnlyByAdvance : Prop :=
  ∀ s t : State, step s = .next t → (∀ seeds, s.nextMove ≠ .reset seeds) → t.phase ≠ s.phase →
    s.nextMove = .serve .a ∧ s.halted .a = false ∧
    ∃ i rest, decode .a s.pendA = .command i rest ∧ i.advances = true

/-- R52: the host consumes a response stream; that it takes the oldest word first is the model's reading
(log entry 22). -/
def Obligations.ConsumeTakesOldest : Prop :=
  ∀ (s : State) (w : Word) (ws : List Word) (ms : List Move), s.cfg.wellFormed = true →
    (s.moves = .consume .a :: ms → s.respA = w :: ws →
      step s = .next { s with moves := ms, respA := ws }) ∧
    (s.moves = .consume .c :: ms → s.respC = w :: ws →
      step s = .next { s with moves := ms, respC := ws })

/-- The model's choice where the host has no move left (log entry 8): a port with a step is served,
port A before port C, and with none the machine stands still (R266). -/
def Obligations.IdleMachineServesOrStands : Prop :=
  ∀ s : State, s.cfg.wellFormed = true → s.moves = [] →
    (s.ready .a = true → step s = s.servePort .a) ∧
    (s.ready .a = false → s.ready .c = true → step s = s.servePort .c) ∧
    (s.ready .a = false → s.ready .c = false → step s = .next s)

/-- R18: an ill-formed configuration is refused. -/
def Obligations.IllFormedConfigIsRefused : Prop :=
  ∀ s : State, step s = .refused .illFormedConfig ↔
    ¬ (s.cfg.log2Cells ≤ 16 ∧ s.cfg.log2Rate ≤ 31 ∧ 1 ≤ s.cfg.addrBits ∧ s.cfg.addrBits ≤ 32)
end

