-- ==== Sys2Proof/Laws/Decode.lean ====
section
/-! SUPPORT. The fields of packed headers and pairs, and of the decoder's answers: what the provers
cite in place of unfolding the bit fields. -/

namespace Sys2Proof

@[simp] theorem headerOpc_packHeader (o : Opcode) (imm : Half) :
    headerOpc (packHeader o imm) = o.code := by
  apply BitVec.eq_of_getLsbD_eq
  intro i hi
  simp only [headerOpc, packHeader, BitVec.getLsbD_extractLsb', BitVec.getLsbD_append]
  simp [hi, show i < 16 by omega]

@[simp] theorem headerRsv_packHeader (o : Opcode) (imm : Half) :
    headerRsv (packHeader o imm) = 0#8 := by
  apply BitVec.eq_of_getLsbD_eq
  intro i hi
  simp only [headerRsv, packHeader, BitVec.getLsbD_extractLsb', BitVec.getLsbD_append]
  simp [show 8 + i < 16 by omega]

@[simp] theorem headerImm_packHeader (o : Opcode) (imm : Half) :
    headerImm (packHeader o imm) = imm := by
  apply BitVec.eq_of_getLsbD_eq
  intro i hi
  simp only [headerImm, packHeader, BitVec.getLsbD_extractLsb', BitVec.getLsbD_append]
  simp [hi]

@[simp] theorem pairLow_packPair (x y : Half) : pairLow (packPair x y) = x := by
  apply BitVec.eq_of_getLsbD_eq
  intro i hi
  simp only [pairLow, packPair, BitVec.getLsbD_extractLsb', BitVec.getLsbD_append]
  simp [hi]

@[simp] theorem pairHigh_packPair (x y : Half) : pairHigh (packPair x y) = y := by
  apply BitVec.eq_of_getLsbD_eq
  intro i hi
  simp only [pairHigh, packPair, BitVec.getLsbD_extractLsb', BitVec.getLsbD_append]
  simp [hi]

/-- A P16 word is its two halves. -/
@[simp] theorem packPair_halves (w : Word) : packPair (pairLow w) (pairHigh w) = w := by
  apply BitVec.eq_of_getLsbD_eq
  intro i hi
  simp only [pairLow, pairHigh, packPair, BitVec.getLsbD_extractLsb', BitVec.getLsbD_append]
  by_cases h : i < 16
  · simp [h]
  · simp [h, show i - 16 < 16 by omega, show 16 + (i - 16) = i by omega]

/-- A header is its three fields. -/
theorem header_ext {h g : Word} (ho : headerOpc h = headerOpc g) (hr : headerRsv h = headerRsv g)
    (hi : headerImm h = headerImm g) : h = g := by
  apply BitVec.eq_of_getLsbD_eq
  intro i hlt
  have bo := congrArg (fun b => b.getLsbD i) ho
  have br := congrArg (fun b => b.getLsbD (i - 8)) hr
  have bi := congrArg (fun b => b.getLsbD (i - 16)) hi
  simp only [headerOpc, headerRsv, headerImm, BitVec.getLsbD_extractLsb'] at bo br bi
  by_cases h8 : i < 8
  · simpa [h8] using bo
  · by_cases h16 : i < 16
    · simpa [show i - 8 < 8 by omega, show 8 + (i - 8) = i by omega] using br
    · simpa [show i - 16 < 16 by omega, show 16 + (i - 16) = i by omega] using bi

@[simp] theorem Opcode.ofCode?_code (o : Opcode) : Opcode.ofCode? o.code = some o := by
  cases o <;> rfl

/-- The opcode map has one row for each OPC value it assigns. -/
theorem Opcode.code_of_ofCode? {b : Byte} {o : Opcode} (h : Opcode.ofCode? b = some o) :
    o.code = b := by
  unfold Opcode.ofCode? at h
  apply BitVec.eq_of_toNat_eq
  split at h <;> first | contradiction | (cases h; simp_all [Opcode.code])

/-- What a legal header holds (R109). -/
theorem headerCause_none {p : Port} {h : Word} (hc : headerCause p h = none) :
    ∃ o, Opcode.ofCode? (headerOpc h) = some o ∧ o.port = p ∧ headerRsv h = 0#8 ∧
      (o.usesImm = false → headerImm h = 0#16) := by
  unfold headerCause at hc
  split at hc
  · contradiction
  · rename_i o ho
    refine ⟨o, ho, ?_⟩
    split at hc
    · contradiction
    · rename_i hp
      split at hc
      · contradiction
      · rename_i hr
        split at hc
        · contradiction
        · rename_i hi
          refine ⟨by simpa using hp, by simpa using hr, fun hu => ?_⟩
          by_contra hne
          exact hi ⟨hne, hu⟩

/-- The header of an encoded command is legal on its port. -/
theorem headerCause_packHeader (o : Opcode) (imm : Half) (h : o.usesImm = false → imm = 0#16) :
    headerCause o.port (packHeader o imm) = none := by
  unfold headerCause
  simp only [headerOpc_packHeader, Opcode.ofCode?_code, headerRsv_packHeader, headerImm_packHeader]
  by_cases hi : imm = 0#16
  · simp [hi]
  · cases hu : o.usesImm
    · exact absurd (h hu) hi
    · simp

/-- A port with a legal header decodes by that header's row (R104). -/
theorem decode_legal {p : Port} {h : Word} {o : Opcode} (ws : List Word)
    (hc : headerCause p h = none) (ho : Opcode.ofCode? (headerOpc h) = some o) :
    decode p (h :: ws) = assembleOperands o (headerImm h) ws := by
  simp [decode, hc, ho]

/-- An illegal header is rejected by its cause, whatever follows it (R104). -/
theorem decode_illegal {p : Port} {h : Word} {cause : Cause} (ws : List Word)
    (hc : headerCause p h = some cause) : decode p (h :: ws) = .illegal cause h := by
  simp [decode, hc]

/-- Operand words are never illegal (R110). -/
theorem assembleOperands_ne_illegal (o : Opcode) (imm : Half) (ws : List Word) (cause : Cause)
    (h : Word) : assembleOperands o imm ws ≠ .illegal cause h := by
  unfold assembleOperands
  split <;> simp

/-- Where a port rejects, it rejects its oldest word, by that word's cause. -/
theorem decode_illegal_inv {p : Port} {ws : List Word} {cause : Cause} {h : Word}
    (hd : decode p ws = .illegal cause h) :
    headerCause p h = some cause ∧ ∃ rest, ws = h :: rest := by
  cases ws with
  | nil => simp [decode] at hd
  | cons g ws =>
    simp only [decode] at hd
    split at hd
    · rename_i hc
      cases hd
      exact ⟨hc, ws, rfl⟩
    · exact absurd hd (assembleOperands_ne_illegal _ _ _ _ _)
    · cases hd

/-- Where a port performs a command, its oldest word is a legal header of the command's row. -/
theorem decode_command_inv {p : Port} {ws : List Word} {i : Instr} {rest : List Word}
    (hd : decode p ws = .command i rest) :
    ∃ h tl o, ws = h :: tl ∧ headerCause p h = none ∧ Opcode.ofCode? (headerOpc h) = some o ∧
      assembleOperands o (headerImm h) tl = .command i rest := by
  cases ws with
  | nil => simp [decode] at hd
  | cons h tl =>
    simp only [decode] at hd
    split at hd
    · cases hd
    · rename_i o hc ho
      exact ⟨h, tl, o, rfl, hc, ho, hd⟩
    · cases hd

/-- The command assembled from a row's operands is one of that row. -/
theorem assembleOperands_opcode {o : Opcode} {imm : Half} {ws : List Word} {i : Instr}
    {rest : List Word} (h : assembleOperands o imm ws = .command i rest) : i.opcode = o := by
  unfold assembleOperands at h
  split at h <;> first | contradiction | (cases h; rfl)

/-- A port performs only commands of its own (R108). -/
theorem decode_command_port {p : Port} {ws : List Word} {i : Instr} {rest : List Word}
    (hd : decode p ws = .command i rest) : i.opcode.port = p := by
  obtain ⟨h, tl, o, -, hc, ho, ha⟩ := decode_command_inv hd
  obtain ⟨o', ho', hp, -⟩ := headerCause_none hc
  rw [ho] at ho'
  cases ho'
  rw [assembleOperands_opcode ha, hp]

end Sys2Proof
end

