-- ==== Sys2Proof/Laws/Flags.lean ====
section
/-! SUPPORT. What each write of STATUS does to each of its fields (R49, R252). -/

namespace Sys2Proof.Machine

theorem or_and_of_disjoint {x m f : Word} (h : m &&& f = 0#32) : (x ||| m) &&& f = x &&& f := by
  have hb : ∀ i, (m.getLsbD i && f.getLsbD i) = false := fun i => by
    rw [← BitVec.getLsbD_and, h, BitVec.getLsbD_zero]
  apply BitVec.eq_of_getLsbD_eq
  intro i hi
  have hi := hb i
  simp only [BitVec.getLsbD_and, BitVec.getLsbD_or]
  generalize m.getLsbD i = a at hi
  generalize f.getLsbD i = b at hi
  cases a <;> cases b <;> simp at hi ⊢

theorem faultBit_withSetBit {m : Word} (p : Port) (st : Word) (h : m &&& faultMask p = 0#32) :
    faultBit p (withSetBit m st) = faultBit p st := by
  unfold faultBit withSetBit; rw [or_and_of_disjoint h]

theorem causeField_withSetBit {m : Word} (p : Port) (st : Word) (h : m &&& causeMask p = 0#32) :
    causeField p (withSetBit m st) = causeField p st := by
  unfold causeField withSetBit; rw [or_and_of_disjoint h]

theorem reserved_withSetBit {m : Word} (st : Word) (h : m &&& reservedMask = 0#32) :
    withSetBit m st &&& reservedMask = st &&& reservedMask := or_and_of_disjoint h

@[simp] theorem faultBit_tblSet (p : Port) (st : Word) :
    faultBit p (withSetBit tblSetMask st) = faultBit p st :=
  faultBit_withSetBit p st (by cases p <;> decide)

@[simp] theorem faultBit_freqSet (p : Port) (st : Word) :
    faultBit p (withSetBit freqSetMask st) = faultBit p st :=
  faultBit_withSetBit p st (by cases p <;> decide)

@[simp] theorem faultBit_gainSet (p : Port) (st : Word) :
    faultBit p (withSetBit gainSetMask st) = faultBit p st :=
  faultBit_withSetBit p st (by cases p <;> decide)

@[simp] theorem causeField_tblSet (p : Port) (st : Word) :
    causeField p (withSetBit tblSetMask st) = causeField p st :=
  causeField_withSetBit p st (by cases p <;> decide)

@[simp] theorem causeField_freqSet (p : Port) (st : Word) :
    causeField p (withSetBit freqSetMask st) = causeField p st :=
  causeField_withSetBit p st (by cases p <;> decide)

@[simp] theorem causeField_gainSet (p : Port) (st : Word) :
    causeField p (withSetBit gainSetMask st) = causeField p st :=
  causeField_withSetBit p st (by cases p <;> decide)

/-- R252 read through a mask `f`: bits of the cause field are replaced, the fault bit is added. -/
theorem withFault_and (p : Port) (cause : Cause) (st f : Word) :
    withFault p cause st &&& f =
      (st &&& (~~~ causeMask p &&& f)) |||
        (((causeCode cause <<< causeShift p) ||| faultMask p) &&& f) := by
  apply BitVec.eq_of_getLsbD_eq
  intro i hi
  simp only [withFault, BitVec.getLsbD_and, BitVec.getLsbD_or]
  cases st.getLsbD i <;> cases (~~~ causeMask p).getLsbD i <;> cases f.getLsbD i <;> simp

@[simp] theorem faultBit_withFault (p : Port) (cause : Cause) (st : Word) :
    faultBit p (withFault p cause st) = true := by
  have h : withFault p cause st &&& faultMask p ≠ 0#32 := by
    rw [withFault_and]
    have : ((causeCode cause <<< causeShift p) ||| faultMask p) &&& faultMask p = faultMask p := by
      cases p <;> cases cause <;> decide
    rw [this]
    intro h0
    have := congrArg (fun b => b &&& faultMask p) h0
    have h1 : (st &&& (~~~ causeMask p &&& faultMask p) ||| faultMask p) &&& faultMask p
        = faultMask p := by
      apply BitVec.eq_of_getLsbD_eq
      intro i hi
      simp only [BitVec.getLsbD_and, BitVec.getLsbD_or]
      cases (faultMask p).getLsbD i <;> simp
    simp only [h1] at this
    cases p <;> exact absurd this (by decide)
  simpa [faultBit] using h

@[simp] theorem causeField_withFault (p : Port) (cause : Cause) (st : Word) :
    causeField p (withFault p cause st) = causeCode cause := by
  unfold causeField
  rw [withFault_and]
  have h1 : ~~~ causeMask p &&& causeMask p = 0#32 := by cases p <;> decide
  rw [h1]
  have h2 : st &&& 0#32 = 0#32 := by simp
  rw [h2]
  cases p <;> cases cause <;> decide

theorem faultBit_withFault_other {p q : Port} (h : q ≠ p) (cause : Cause) (st : Word) :
    faultBit q (withFault p cause st) = faultBit q st := by
  unfold faultBit
  rw [withFault_and]
  have h1 : ~~~ causeMask p &&& faultMask q = faultMask q := by cases p <;> cases q <;> decide
  have h2 : ((causeCode cause <<< causeShift p) ||| faultMask p) &&& faultMask q = 0#32 := by
    cases p <;> cases q <;> cases cause <;> first | contradiction | decide
  rw [h1, h2]; simp

theorem causeField_withFault_other {p q : Port} (h : q ≠ p) (cause : Cause) (st : Word) :
    causeField q (withFault p cause st) = causeField q st := by
  unfold causeField
  rw [withFault_and]
  have h1 : ~~~ causeMask p &&& causeMask q = causeMask q := by
    cases p <;> cases q <;> first | contradiction | decide
  have h2 : ((causeCode cause <<< causeShift p) ||| faultMask p) &&& causeMask q = 0#32 := by
    cases p <;> cases q <;> cases cause <;> first | contradiction | decide
  rw [h1, h2]; simp

theorem reserved_withFault (p : Port) (cause : Cause) (st : Word) :
    withFault p cause st &&& reservedMask = st &&& reservedMask := by
  rw [withFault_and]
  have h1 : ~~~ causeMask p &&& reservedMask = reservedMask := by cases p <;> decide
  have h2 : ((causeCode cause <<< causeShift p) ||| faultMask p) &&& reservedMask = 0#32 := by
    cases p <;> cases cause <;> decide
  rw [h1, h2]; simp

end Sys2Proof.Machine
end

