-- ==== Sys2Proof/Laws/Memory.lean ====
section
/-! SUPPORT. The laws of table memory as a list: read after write, the canonical form, and that equal
contents are equal lists. -/

namespace Sys2Proof.Machine

theorem Memory.read_write_same (m : List Host.Cell) (a : Nat) (v : Byte)
    (h : m.Pairwise fun x y => x.1 < y.1) : Memory.read (Memory.write m a v) a = v := by
  induction m with
  | nil => by_cases hv : v = blankCell <;> simp [Memory.write, Memory.read, hv]
  | cons x m ih =>
    obtain ⟨b, u⟩ := x
    have hm := (List.pairwise_cons.mp h)
    have absent : ∀ l : List Host.Cell, (∀ y ∈ l, a < y.1) → Memory.read l a = blankCell := by
      intro l
      induction l with
      | nil => intro _; rfl
      | cons y l ihl =>
        intro hl
        have hy := hl y (by simp)
        have := ihl fun z hz => hl z (by simp [hz])
        simp [Memory.read, this]; omega
    unfold Memory.write
    by_cases h1 : a < b
    · have hb : Memory.read ((b, u) :: m) a = blankCell := by
        refine absent _ fun y hy => ?_
        rcases List.mem_cons.mp hy with rfl | hy
        · exact h1
        · exact Nat.lt_trans h1 (hm.1 y hy)
      by_cases hv : v = blankCell
      · simpa [h1, hv] using hb
      · simp [h1, hv, Memory.read]
    · by_cases h2 : a = b
      · by_cases hv : v = blankCell
        · subst h2
          simpa [hv] using absent m fun y hy => hm.1 y hy
        · simp [h2, hv, Memory.read]
      · simpa [h1, h2, Memory.read] using ih hm.2

theorem Memory.read_write_other (m : List Host.Cell) {a b : Nat} (v : Byte) (hab : b ≠ a) :
    Memory.read (Memory.write m a v) b = Memory.read m b := by
  induction m with
  | nil => by_cases hv : v = blankCell <;> simp [Memory.write, Memory.read, hv, hab]
  | cons x m ih =>
    obtain ⟨c, u⟩ := x
    unfold Memory.write
    split
    · split <;> simp [Memory.read, hab]
    · split
      · rename_i _ hac
        subst hac
        split <;> simp [Memory.read, hab]
      · simp [Memory.read, ih]

/-- A cell of the written memory is the cell written or one that was there. -/
theorem Memory.mem_write {m : List Host.Cell} {a : Nat} {v : Byte} {x : Host.Cell}
    (h : x ∈ Memory.write m a v) : (x = (a, v) ∧ v ≠ blankCell) ∨ x ∈ m := by
  induction m with
  | nil =>
    by_cases hv : v = blankCell <;> simp_all [Memory.write]
  | cons y m ih =>
    obtain ⟨b, u⟩ := y
    unfold Memory.write at h
    split at h
    · split at h <;> simp_all
    · split at h
      · split at h <;> simp_all
        rcases h with h | h <;> simp [h]
      · rcases List.mem_cons.mp h with rfl | h
        · simp
        · rcases ih h with h | h <;> simp [h]

theorem Memory.write_wf {m : List Host.Cell} (a : Nat) (v : Byte) (h : Memory.wf m) :
    Memory.wf (Memory.write m a v) := by
  constructor
  · obtain ⟨h, -⟩ := h
    induction m with
    | nil => by_cases hv : v = blankCell <;> simp [Memory.write, hv]
    | cons x m ih =>
      obtain ⟨b, u⟩ := x
      have hm := List.pairwise_cons.mp h
      unfold Memory.write
      split
      · rename_i hab
        split
        · exact h
        · refine List.pairwise_cons.mpr ⟨fun y hy => ?_, h⟩
          rcases List.mem_cons.mp hy with rfl | hy
          · exact hab
          · exact Nat.lt_trans hab (hm.1 y hy)
      · split
        · rename_i _ hab
          subst hab
          split
          · exact hm.2
          · exact List.pairwise_cons.mpr ⟨hm.1, hm.2⟩
        · refine List.pairwise_cons.mpr ⟨fun y hy => ?_, ih hm.2⟩
          rcases Memory.mem_write hy with ⟨rfl, -⟩ | hy
          · simp only; omega
          · exact hm.1 y hy
  · intro x hx
    rcases Memory.mem_write hx with ⟨rfl, hv⟩ | hx
    · exact hv
    · exact h.2 x hx

theorem Memory.nil_wf : Memory.wf [] := by simp [Memory.wf]

theorem Memory.read_of_lt {m : List Host.Cell} {a : Nat} (h : ∀ x ∈ m, a < x.1) :
    Memory.read m a = blankCell := by
  induction m with
  | nil => rfl
  | cons x m ih =>
    obtain ⟨b, u⟩ := x
    have hb : a < b := h (b, u) (by simp)
    simp [Memory.read, ih fun y hy => h y (by simp [hy]), Nat.ne_of_lt hb]

/-- The canonical form is canonical: memories that read alike are the same list. -/
theorem Memory.ext_of_read {m n : List Host.Cell} (hm : Memory.wf m) (hn : Memory.wf n)
    (h : ∀ a, Memory.read m a = Memory.read n a) : m = n := by
  induction m generalizing n with
  | nil =>
    cases n with
    | nil => rfl
    | cons y n =>
      have := h y.1
      simp [Memory.read] at this
      exact absurd this.symm (hn.2 y (by simp))
  | cons x m ih =>
    have hx := List.pairwise_cons.mp hm.1
    cases n with
    | nil =>
      have := h x.1
      simp [Memory.read] at this
      exact absurd this (hm.2 x (by simp))
    | cons y n =>
      have hy := List.pairwise_cons.mp hn.1
      have hxy : x.1 = y.1 := by
        rcases Nat.lt_trichotomy x.1 y.1 with hlt | heq | hgt
        · have h1 := h x.1
          rw [Memory.read_of_lt (m := y :: n) fun z hz => by
            rcases List.mem_cons.mp hz with rfl | hz
            · exact hlt
            · exact Nat.lt_trans hlt (hy.1 z hz)] at h1
          simp [Memory.read] at h1
          exact absurd h1 (hm.2 x (by simp))
        · exact heq
        · have h1 := h y.1
          rw [Memory.read_of_lt (m := x :: m) fun z hz => by
            rcases List.mem_cons.mp hz with rfl | hz
            · exact hgt
            · exact Nat.lt_trans hgt (hx.1 z hz)] at h1
          simp [Memory.read] at h1
          exact absurd h1.symm (hn.2 y (by simp))
      have hv : x.2 = y.2 := by
        have := h x.1
        simpa [Memory.read, hxy] using this
      have hxy' : x = y := Prod.ext hxy hv
      subst hxy'
      congr 1
      refine ih ⟨hx.2, fun z hz => hm.2 z (by simp [hz])⟩
        ⟨hy.2, fun z hz => hn.2 z (by simp [hz])⟩ fun a => ?_
      by_cases ha : a = x.1
      · subst ha
        rw [Memory.read_of_lt hx.1, Memory.read_of_lt hy.1]
      · simpa [Memory.read, ha] using h a

end Sys2Proof.Machine
end

