-- ==== Sys2Proof/Laws/State.lean ====
section
/-! SUPPORT. What each shared update does to each field of the state, one lemma per field per update;
with these no later proof unfolds a record update. -/

namespace Sys2Proof.Machine

/-! ### `State.setPend` -/

@[simp] theorem State.setPend_cfg (s : State) (p : Port) (ws : List Word) :
    (s.setPend p ws).cfg = s.cfg := by cases p <;> rfl
@[simp] theorem State.setPend_phase (s : State) (p : Port) (ws : List Word) :
    (s.setPend p ws).phase = s.phase := by cases p <;> rfl
@[simp] theorem State.setPend_inc (s : State) (p : Port) (ws : List Word) :
    (s.setPend p ws).inc = s.inc := by cases p <;> rfl
@[simp] theorem State.setPend_gain1 (s : State) (p : Port) (ws : List Word) :
    (s.setPend p ws).gain1 = s.gain1 := by cases p <;> rfl
@[simp] theorem State.setPend_gain2 (s : State) (p : Port) (ws : List Word) :
    (s.setPend p ws).gain2 = s.gain2 := by cases p <;> rfl
@[simp] theorem State.setPend_wave1 (s : State) (p : Port) (ws : List Word) :
    (s.setPend p ws).wave1 = s.wave1 := by cases p <;> rfl
@[simp] theorem State.setPend_bass1 (s : State) (p : Port) (ws : List Word) :
    (s.setPend p ws).bass1 = s.bass1 := by cases p <;> rfl
@[simp] theorem State.setPend_wave2 (s : State) (p : Port) (ws : List Word) :
    (s.setPend p ws).wave2 = s.wave2 := by cases p <;> rfl
@[simp] theorem State.setPend_bass2 (s : State) (p : Port) (ws : List Word) :
    (s.setPend p ws).bass2 = s.bass2 := by cases p <;> rfl
@[simp] theorem State.setPend_status (s : State) (p : Port) (ws : List Word) :
    (s.setPend p ws).status = s.status := by cases p <;> rfl
@[simp] theorem State.setPend_fhdrA (s : State) (p : Port) (ws : List Word) :
    (s.setPend p ws).fhdrA = s.fhdrA := by cases p <;> rfl
@[simp] theorem State.setPend_fhdrC (s : State) (p : Port) (ws : List Word) :
    (s.setPend p ws).fhdrC = s.fhdrC := by cases p <;> rfl
@[simp] theorem State.setPend_pendA (s : State) (p : Port) (ws : List Word) :
    (s.setPend p ws).pendA = if p = .a then ws else s.pendA := by cases p <;> rfl
@[simp] theorem State.setPend_pendC (s : State) (p : Port) (ws : List Word) :
    (s.setPend p ws).pendC = if p = .c then ws else s.pendC := by cases p <;> rfl
@[simp] theorem State.setPend_respA (s : State) (p : Port) (ws : List Word) :
    (s.setPend p ws).respA = s.respA := by cases p <;> rfl
@[simp] theorem State.setPend_respC (s : State) (p : Port) (ws : List Word) :
    (s.setPend p ws).respC = s.respC := by cases p <;> rfl
@[simp] theorem State.setPend_tmem (s : State) (p : Port) (ws : List Word) :
    (s.setPend p ws).tmem = s.tmem := by cases p <;> rfl
@[simp] theorem State.setPend_otherPointers (s : State) (p : Port) (ws : List Word) :
    (s.setPend p ws).otherPointers = s.otherPointers := by cases p <;> rfl
@[simp] theorem State.setPend_moves (s : State) (p : Port) (ws : List Word) :
    (s.setPend p ws).moves = s.moves := by cases p <;> rfl
@[simp] theorem State.setPend_draws (s : State) (p : Port) (ws : List Word) :
    (s.setPend p ws).draws = s.draws := by cases p <;> rfl

/-! ### `State.setResp` -/

@[simp] theorem State.setResp_cfg (s : State) (p : Port) (ws : List Word) :
    (s.setResp p ws).cfg = s.cfg := by cases p <;> rfl
@[simp] theorem State.setResp_phase (s : State) (p : Port) (ws : List Word) :
    (s.setResp p ws).phase = s.phase := by cases p <;> rfl
@[simp] theorem State.setResp_inc (s : State) (p : Port) (ws : List Word) :
    (s.setResp p ws).inc = s.inc := by cases p <;> rfl
@[simp] theorem State.setResp_gain1 (s : State) (p : Port) (ws : List Word) :
    (s.setResp p ws).gain1 = s.gain1 := by cases p <;> rfl
@[simp] theorem State.setResp_gain2 (s : State) (p : Port) (ws : List Word) :
    (s.setResp p ws).gain2 = s.gain2 := by cases p <;> rfl
@[simp] theorem State.setResp_wave1 (s : State) (p : Port) (ws : List Word) :
    (s.setResp p ws).wave1 = s.wave1 := by cases p <;> rfl
@[simp] theorem State.setResp_bass1 (s : State) (p : Port) (ws : List Word) :
    (s.setResp p ws).bass1 = s.bass1 := by cases p <;> rfl
@[simp] theorem State.setResp_wave2 (s : State) (p : Port) (ws : List Word) :
    (s.setResp p ws).wave2 = s.wave2 := by cases p <;> rfl
@[simp] theorem State.setResp_bass2 (s : State) (p : Port) (ws : List Word) :
    (s.setResp p ws).bass2 = s.bass2 := by cases p <;> rfl
@[simp] theorem State.setResp_status (s : State) (p : Port) (ws : List Word) :
    (s.setResp p ws).status = s.status := by cases p <;> rfl
@[simp] theorem State.setResp_fhdrA (s : State) (p : Port) (ws : List Word) :
    (s.setResp p ws).fhdrA = s.fhdrA := by cases p <;> rfl
@[simp] theorem State.setResp_fhdrC (s : State) (p : Port) (ws : List Word) :
    (s.setResp p ws).fhdrC = s.fhdrC := by cases p <;> rfl
@[simp] theorem State.setResp_pendA (s : State) (p : Port) (ws : List Word) :
    (s.setResp p ws).pendA = s.pendA := by cases p <;> rfl
@[simp] theorem State.setResp_pendC (s : State) (p : Port) (ws : List Word) :
    (s.setResp p ws).pendC = s.pendC := by cases p <;> rfl
@[simp] theorem State.setResp_respA (s : State) (p : Port) (ws : List Word) :
    (s.setResp p ws).respA = if p = .a then ws else s.respA := by cases p <;> rfl
@[simp] theorem State.setResp_respC (s : State) (p : Port) (ws : List Word) :
    (s.setResp p ws).respC = if p = .c then ws else s.respC := by cases p <;> rfl
@[simp] theorem State.setResp_tmem (s : State) (p : Port) (ws : List Word) :
    (s.setResp p ws).tmem = s.tmem := by cases p <;> rfl
@[simp] theorem State.setResp_otherPointers (s : State) (p : Port) (ws : List Word) :
    (s.setResp p ws).otherPointers = s.otherPointers := by cases p <;> rfl
@[simp] theorem State.setResp_moves (s : State) (p : Port) (ws : List Word) :
    (s.setResp p ws).moves = s.moves := by cases p <;> rfl
@[simp] theorem State.setResp_draws (s : State) (p : Port) (ws : List Word) :
    (s.setResp p ws).draws = s.draws := by cases p <;> rfl

/-! ### `State.setFhdr` -/

@[simp] theorem State.setFhdr_cfg (s : State) (p : Port) (h : Word) :
    (s.setFhdr p h).cfg = s.cfg := by cases p <;> rfl
@[simp] theorem State.setFhdr_phase (s : State) (p : Port) (h : Word) :
    (s.setFhdr p h).phase = s.phase := by cases p <;> rfl
@[simp] theorem State.setFhdr_inc (s : State) (p : Port) (h : Word) :
    (s.setFhdr p h).inc = s.inc := by cases p <;> rfl
@[simp] theorem State.setFhdr_gain1 (s : State) (p : Port) (h : Word) :
    (s.setFhdr p h).gain1 = s.gain1 := by cases p <;> rfl
@[simp] theorem State.setFhdr_gain2 (s : State) (p : Port) (h : Word) :
    (s.setFhdr p h).gain2 = s.gain2 := by cases p <;> rfl
@[simp] theorem State.setFhdr_wave1 (s : State) (p : Port) (h : Word) :
    (s.setFhdr p h).wave1 = s.wave1 := by cases p <;> rfl
@[simp] theorem State.setFhdr_bass1 (s : State) (p : Port) (h : Word) :
    (s.setFhdr p h).bass1 = s.bass1 := by cases p <;> rfl
@[simp] theorem State.setFhdr_wave2 (s : State) (p : Port) (h : Word) :
    (s.setFhdr p h).wave2 = s.wave2 := by cases p <;> rfl
@[simp] theorem State.setFhdr_bass2 (s : State) (p : Port) (h : Word) :
    (s.setFhdr p h).bass2 = s.bass2 := by cases p <;> rfl
@[simp] theorem State.setFhdr_status (s : State) (p : Port) (h : Word) :
    (s.setFhdr p h).status = s.status := by cases p <;> rfl
@[simp] theorem State.setFhdr_fhdrA (s : State) (p : Port) (h : Word) :
    (s.setFhdr p h).fhdrA = if p = .a then h else s.fhdrA := by cases p <;> rfl
@[simp] theorem State.setFhdr_fhdrC (s : State) (p : Port) (h : Word) :
    (s.setFhdr p h).fhdrC = if p = .c then h else s.fhdrC := by cases p <;> rfl
@[simp] theorem State.setFhdr_pendA (s : State) (p : Port) (h : Word) :
    (s.setFhdr p h).pendA = s.pendA := by cases p <;> rfl
@[simp] theorem State.setFhdr_pendC (s : State) (p : Port) (h : Word) :
    (s.setFhdr p h).pendC = s.pendC := by cases p <;> rfl
@[simp] theorem State.setFhdr_respA (s : State) (p : Port) (h : Word) :
    (s.setFhdr p h).respA = s.respA := by cases p <;> rfl
@[simp] theorem State.setFhdr_respC (s : State) (p : Port) (h : Word) :
    (s.setFhdr p h).respC = s.respC := by cases p <;> rfl
@[simp] theorem State.setFhdr_tmem (s : State) (p : Port) (h : Word) :
    (s.setFhdr p h).tmem = s.tmem := by cases p <;> rfl
@[simp] theorem State.setFhdr_otherPointers (s : State) (p : Port) (h : Word) :
    (s.setFhdr p h).otherPointers = s.otherPointers := by cases p <;> rfl
@[simp] theorem State.setFhdr_moves (s : State) (p : Port) (h : Word) :
    (s.setFhdr p h).moves = s.moves := by cases p <;> rfl
@[simp] theorem State.setFhdr_draws (s : State) (p : Port) (h : Word) :
    (s.setFhdr p h).draws = s.draws := by cases p <;> rfl

/-! ### `State.respond` -/

@[simp] theorem State.respond_cfg (s : State) (p : Port) (v : Word) :
    (s.respond p v).cfg = s.cfg := by cases p <;> rfl
@[simp] theorem State.respond_phase (s : State) (p : Port) (v : Word) :
    (s.respond p v).phase = s.phase := by cases p <;> rfl
@[simp] theorem State.respond_inc (s : State) (p : Port) (v : Word) :
    (s.respond p v).inc = s.inc := by cases p <;> rfl
@[simp] theorem State.respond_gain1 (s : State) (p : Port) (v : Word) :
    (s.respond p v).gain1 = s.gain1 := by cases p <;> rfl
@[simp] theorem State.respond_gain2 (s : State) (p : Port) (v : Word) :
    (s.respond p v).gain2 = s.gain2 := by cases p <;> rfl
@[simp] theorem State.respond_wave1 (s : State) (p : Port) (v : Word) :
    (s.respond p v).wave1 = s.wave1 := by cases p <;> rfl
@[simp] theorem State.respond_bass1 (s : State) (p : Port) (v : Word) :
    (s.respond p v).bass1 = s.bass1 := by cases p <;> rfl
@[simp] theorem State.respond_wave2 (s : State) (p : Port) (v : Word) :
    (s.respond p v).wave2 = s.wave2 := by cases p <;> rfl
@[simp] theorem State.respond_bass2 (s : State) (p : Port) (v : Word) :
    (s.respond p v).bass2 = s.bass2 := by cases p <;> rfl
@[simp] theorem State.respond_status (s : State) (p : Port) (v : Word) :
    (s.respond p v).status = s.status := by cases p <;> rfl
@[simp] theorem State.respond_fhdrA (s : State) (p : Port) (v : Word) :
    (s.respond p v).fhdrA = s.fhdrA := by cases p <;> rfl
@[simp] theorem State.respond_fhdrC (s : State) (p : Port) (v : Word) :
    (s.respond p v).fhdrC = s.fhdrC := by cases p <;> rfl
@[simp] theorem State.respond_pendA (s : State) (p : Port) (v : Word) :
    (s.respond p v).pendA = s.pendA := by cases p <;> rfl
@[simp] theorem State.respond_pendC (s : State) (p : Port) (v : Word) :
    (s.respond p v).pendC = s.pendC := by cases p <;> rfl
@[simp] theorem State.respond_respA (s : State) (p : Port) (v : Word) :
    (s.respond p v).respA = if p = .a then s.respA ++ [v] else s.respA := by cases p <;> rfl
@[simp] theorem State.respond_respC (s : State) (p : Port) (v : Word) :
    (s.respond p v).respC = if p = .c then s.respC ++ [v] else s.respC := by cases p <;> rfl
@[simp] theorem State.respond_tmem (s : State) (p : Port) (v : Word) :
    (s.respond p v).tmem = s.tmem := by cases p <;> rfl
@[simp] theorem State.respond_otherPointers (s : State) (p : Port) (v : Word) :
    (s.respond p v).otherPointers = s.otherPointers := by cases p <;> rfl
@[simp] theorem State.respond_moves (s : State) (p : Port) (v : Word) :
    (s.respond p v).moves = s.moves := by cases p <;> rfl
@[simp] theorem State.respond_draws (s : State) (p : Port) (v : Word) :
    (s.respond p v).draws = s.draws := by cases p <;> rfl

/-! ### `State.consume` -/

@[simp] theorem State.consume_cfg (s : State) (p : Port) :
    (s.consume p).cfg = s.cfg := by cases p <;> rfl
@[simp] theorem State.consume_phase (s : State) (p : Port) :
    (s.consume p).phase = s.phase := by cases p <;> rfl
@[simp] theorem State.consume_inc (s : State) (p : Port) :
    (s.consume p).inc = s.inc := by cases p <;> rfl
@[simp] theorem State.consume_gain1 (s : State) (p : Port) :
    (s.consume p).gain1 = s.gain1 := by cases p <;> rfl
@[simp] theorem State.consume_gain2 (s : State) (p : Port) :
    (s.consume p).gain2 = s.gain2 := by cases p <;> rfl
@[simp] theorem State.consume_wave1 (s : State) (p : Port) :
    (s.consume p).wave1 = s.wave1 := by cases p <;> rfl
@[simp] theorem State.consume_bass1 (s : State) (p : Port) :
    (s.consume p).bass1 = s.bass1 := by cases p <;> rfl
@[simp] theorem State.consume_wave2 (s : State) (p : Port) :
    (s.consume p).wave2 = s.wave2 := by cases p <;> rfl
@[simp] theorem State.consume_bass2 (s : State) (p : Port) :
    (s.consume p).bass2 = s.bass2 := by cases p <;> rfl
@[simp] theorem State.consume_status (s : State) (p : Port) :
    (s.consume p).status = s.status := by cases p <;> rfl
@[simp] theorem State.consume_fhdrA (s : State) (p : Port) :
    (s.consume p).fhdrA = s.fhdrA := by cases p <;> rfl
@[simp] theorem State.consume_fhdrC (s : State) (p : Port) :
    (s.consume p).fhdrC = s.fhdrC := by cases p <;> rfl
@[simp] theorem State.consume_pendA (s : State) (p : Port) :
    (s.consume p).pendA = s.pendA := by cases p <;> rfl
@[simp] theorem State.consume_pendC (s : State) (p : Port) :
    (s.consume p).pendC = s.pendC := by cases p <;> rfl
@[simp] theorem State.consume_respA (s : State) (p : Port) :
    (s.consume p).respA = if p = .a then s.respA.tail else s.respA := by cases p <;> rfl
@[simp] theorem State.consume_respC (s : State) (p : Port) :
    (s.consume p).respC = if p = .c then s.respC.tail else s.respC := by cases p <;> rfl
@[simp] theorem State.consume_tmem (s : State) (p : Port) :
    (s.consume p).tmem = s.tmem := by cases p <;> rfl
@[simp] theorem State.consume_otherPointers (s : State) (p : Port) :
    (s.consume p).otherPointers = s.otherPointers := by cases p <;> rfl
@[simp] theorem State.consume_moves (s : State) (p : Port) :
    (s.consume p).moves = s.moves := by cases p <;> rfl
@[simp] theorem State.consume_draws (s : State) (p : Port) :
    (s.consume p).draws = s.draws := by cases p <;> rfl

/-! ### `State.illegalCommand` -/

@[simp] theorem State.illegalCommand_cfg (s : State) (p : Port) (cause : Cause) (h : Word) :
    (s.illegalCommand p cause h).cfg = s.cfg := by cases p <;> rfl
@[simp] theorem State.illegalCommand_phase (s : State) (p : Port) (cause : Cause) (h : Word) :
    (s.illegalCommand p cause h).phase = s.phase := by cases p <;> rfl
@[simp] theorem State.illegalCommand_inc (s : State) (p : Port) (cause : Cause) (h : Word) :
    (s.illegalCommand p cause h).inc = s.inc := by cases p <;> rfl
@[simp] theorem State.illegalCommand_gain1 (s : State) (p : Port) (cause : Cause) (h : Word) :
    (s.illegalCommand p cause h).gain1 = s.gain1 := by cases p <;> rfl
@[simp] theorem State.illegalCommand_gain2 (s : State) (p : Port) (cause : Cause) (h : Word) :
    (s.illegalCommand p cause h).gain2 = s.gain2 := by cases p <;> rfl
@[simp] theorem State.illegalCommand_wave1 (s : State) (p : Port) (cause : Cause) (h : Word) :
    (s.illegalCommand p cause h).wave1 = s.wave1 := by cases p <;> rfl
@[simp] theorem State.illegalCommand_bass1 (s : State) (p : Port) (cause : Cause) (h : Word) :
    (s.illegalCommand p cause h).bass1 = s.bass1 := by cases p <;> rfl
@[simp] theorem State.illegalCommand_wave2 (s : State) (p : Port) (cause : Cause) (h : Word) :
    (s.illegalCommand p cause h).wave2 = s.wave2 := by cases p <;> rfl
@[simp] theorem State.illegalCommand_bass2 (s : State) (p : Port) (cause : Cause) (h : Word) :
    (s.illegalCommand p cause h).bass2 = s.bass2 := by cases p <;> rfl
@[simp] theorem State.illegalCommand_status (s : State) (p : Port) (cause : Cause) (h : Word) :
    (s.illegalCommand p cause h).status = withFault p cause s.status := by cases p <;> rfl
@[simp] theorem State.illegalCommand_fhdrA (s : State) (p : Port) (cause : Cause) (h : Word) :
    (s.illegalCommand p cause h).fhdrA = if p = .a then h else s.fhdrA := by cases p <;> rfl
@[simp] theorem State.illegalCommand_fhdrC (s : State) (p : Port) (cause : Cause) (h : Word) :
    (s.illegalCommand p cause h).fhdrC = if p = .c then h else s.fhdrC := by cases p <;> rfl
@[simp] theorem State.illegalCommand_pendA (s : State) (p : Port) (cause : Cause) (h : Word) :
    (s.illegalCommand p cause h).pendA = if p = .a then [] else s.pendA := by cases p <;> rfl
@[simp] theorem State.illegalCommand_pendC (s : State) (p : Port) (cause : Cause) (h : Word) :
    (s.illegalCommand p cause h).pendC = if p = .c then [] else s.pendC := by cases p <;> rfl
@[simp] theorem State.illegalCommand_respA (s : State) (p : Port) (cause : Cause) (h : Word) :
    (s.illegalCommand p cause h).respA = s.respA := by cases p <;> rfl
@[simp] theorem State.illegalCommand_respC (s : State) (p : Port) (cause : Cause) (h : Word) :
    (s.illegalCommand p cause h).respC = s.respC := by cases p <;> rfl
@[simp] theorem State.illegalCommand_tmem (s : State) (p : Port) (cause : Cause) (h : Word) :
    (s.illegalCommand p cause h).tmem = s.tmem := by cases p <;> rfl
@[simp] theorem State.illegalCommand_otherPointers (s : State) (p : Port) (cause : Cause) (h : Word) :
    (s.illegalCommand p cause h).otherPointers = s.otherPointers := by cases p <;> rfl
@[simp] theorem State.illegalCommand_moves (s : State) (p : Port) (cause : Cause) (h : Word) :
    (s.illegalCommand p cause h).moves = s.moves := by cases p <;> rfl
@[simp] theorem State.illegalCommand_draws (s : State) (p : Port) (cause : Cause) (h : Word) :
    (s.illegalCommand p cause h).draws = s.draws := by cases p <;> rfl

/-! ### `State.advance` -/

@[simp] theorem State.advance_cfg (s : State) :
    (s.advance).cfg = s.cfg := rfl
@[simp] theorem State.advance_phase (s : State) :
    (s.advance).phase = Vector.ofFn fun i : Fin 7 => advancedPhase s.phase[i] s.inc[i] := rfl
@[simp] theorem State.advance_inc (s : State) :
    (s.advance).inc = s.inc := rfl
@[simp] theorem State.advance_gain1 (s : State) :
    (s.advance).gain1 = s.gain1 := rfl
@[simp] theorem State.advance_gain2 (s : State) :
    (s.advance).gain2 = s.gain2 := rfl
@[simp] theorem State.advance_wave1 (s : State) :
    (s.advance).wave1 = s.wave1 := rfl
@[simp] theorem State.advance_bass1 (s : State) :
    (s.advance).bass1 = s.bass1 := rfl
@[simp] theorem State.advance_wave2 (s : State) :
    (s.advance).wave2 = s.wave2 := rfl
@[simp] theorem State.advance_bass2 (s : State) :
    (s.advance).bass2 = s.bass2 := rfl
@[simp] theorem State.advance_status (s : State) :
    (s.advance).status = s.status := rfl
@[simp] theorem State.advance_fhdrA (s : State) :
    (s.advance).fhdrA = s.fhdrA := rfl
@[simp] theorem State.advance_fhdrC (s : State) :
    (s.advance).fhdrC = s.fhdrC := rfl
@[simp] theorem State.advance_pendA (s : State) :
    (s.advance).pendA = s.pendA := rfl
@[simp] theorem State.advance_pendC (s : State) :
    (s.advance).pendC = s.pendC := rfl
@[simp] theorem State.advance_respA (s : State) :
    (s.advance).respA = s.respA := rfl
@[simp] theorem State.advance_respC (s : State) :
    (s.advance).respC = s.respC := rfl
@[simp] theorem State.advance_tmem (s : State) :
    (s.advance).tmem = s.tmem := rfl
@[simp] theorem State.advance_otherPointers (s : State) :
    (s.advance).otherPointers = s.otherPointers := rfl
@[simp] theorem State.advance_moves (s : State) :
    (s.advance).moves = s.moves := rfl
@[simp] theorem State.advance_draws (s : State) :
    (s.advance).draws = s.draws := rfl

/-! ### `State.emitSample` -/

@[simp] theorem State.emitSample_cfg (s : State) (off : Word) :
    (s.emitSample off).cfg = s.cfg := rfl
@[simp] theorem State.emitSample_phase (s : State) (off : Word) :
    (s.emitSample off).phase = s.phase := rfl
@[simp] theorem State.emitSample_inc (s : State) (off : Word) :
    (s.emitSample off).inc = s.inc := rfl
@[simp] theorem State.emitSample_gain1 (s : State) (off : Word) :
    (s.emitSample off).gain1 = s.gain1 := rfl
@[simp] theorem State.emitSample_gain2 (s : State) (off : Word) :
    (s.emitSample off).gain2 = s.gain2 := rfl
@[simp] theorem State.emitSample_wave1 (s : State) (off : Word) :
    (s.emitSample off).wave1 = s.wave1 := rfl
@[simp] theorem State.emitSample_bass1 (s : State) (off : Word) :
    (s.emitSample off).bass1 = s.bass1 := rfl
@[simp] theorem State.emitSample_wave2 (s : State) (off : Word) :
    (s.emitSample off).wave2 = s.wave2 := rfl
@[simp] theorem State.emitSample_bass2 (s : State) (off : Word) :
    (s.emitSample off).bass2 = s.bass2 := rfl
@[simp] theorem State.emitSample_status (s : State) (off : Word) :
    (s.emitSample off).status = s.status := rfl
@[simp] theorem State.emitSample_fhdrA (s : State) (off : Word) :
    (s.emitSample off).fhdrA = s.fhdrA := rfl
@[simp] theorem State.emitSample_fhdrC (s : State) (off : Word) :
    (s.emitSample off).fhdrC = s.fhdrC := rfl
@[simp] theorem State.emitSample_pendA (s : State) (off : Word) :
    (s.emitSample off).pendA = s.pendA := rfl
@[simp] theorem State.emitSample_pendC (s : State) (off : Word) :
    (s.emitSample off).pendC = s.pendC := rfl
@[simp] theorem State.emitSample_respA (s : State) (off : Word) :
    (s.emitSample off).respA = s.respA ++ [sampleWord (s.mix s.phase off)] := rfl
@[simp] theorem State.emitSample_respC (s : State) (off : Word) :
    (s.emitSample off).respC = s.respC := rfl
@[simp] theorem State.emitSample_tmem (s : State) (off : Word) :
    (s.emitSample off).tmem = s.tmem := rfl
@[simp] theorem State.emitSample_otherPointers (s : State) (off : Word) :
    (s.emitSample off).otherPointers = s.otherPointers := rfl
@[simp] theorem State.emitSample_moves (s : State) (off : Word) :
    (s.emitSample off).moves = s.moves := rfl
@[simp] theorem State.emitSample_draws (s : State) (off : Word) :
    (s.emitSample off).draws = s.draws + 14 := rfl

/-! ### `State.setFrequency` -/

@[simp] theorem State.setFrequency_cfg (s : State) (f : Word) :
    (s.setFrequency f).cfg = s.cfg := rfl
@[simp] theorem State.setFrequency_phase (s : State) (f : Word) :
    (s.setFrequency f).phase = s.phase := rfl
@[simp] theorem State.setFrequency_inc (s : State) (f : Word) :
    (s.setFrequency f).inc = octaveStack (firstIncrement s.cfg f) := rfl
@[simp] theorem State.setFrequency_gain1 (s : State) (f : Word) :
    (s.setFrequency f).gain1 = s.gain1 := rfl
@[simp] theorem State.setFrequency_gain2 (s : State) (f : Word) :
    (s.setFrequency f).gain2 = s.gain2 := rfl
@[simp] theorem State.setFrequency_wave1 (s : State) (f : Word) :
    (s.setFrequency f).wave1 = s.wave1 := rfl
@[simp] theorem State.setFrequency_bass1 (s : State) (f : Word) :
    (s.setFrequency f).bass1 = s.bass1 := rfl
@[simp] theorem State.setFrequency_wave2 (s : State) (f : Word) :
    (s.setFrequency f).wave2 = s.wave2 := rfl
@[simp] theorem State.setFrequency_bass2 (s : State) (f : Word) :
    (s.setFrequency f).bass2 = s.bass2 := rfl
@[simp] theorem State.setFrequency_status (s : State) (f : Word) :
    (s.setFrequency f).status = withSetBit freqSetMask s.status := rfl
@[simp] theorem State.setFrequency_fhdrA (s : State) (f : Word) :
    (s.setFrequency f).fhdrA = s.fhdrA := rfl
@[simp] theorem State.setFrequency_fhdrC (s : State) (f : Word) :
    (s.setFrequency f).fhdrC = s.fhdrC := rfl
@[simp] theorem State.setFrequency_pendA (s : State) (f : Word) :
    (s.setFrequency f).pendA = s.pendA := rfl
@[simp] theorem State.setFrequency_pendC (s : State) (f : Word) :
    (s.setFrequency f).pendC = s.pendC := rfl
@[simp] theorem State.setFrequency_respA (s : State) (f : Word) :
    (s.setFrequency f).respA = s.respA := rfl
@[simp] theorem State.setFrequency_respC (s : State) (f : Word) :
    (s.setFrequency f).respC = s.respC := rfl
@[simp] theorem State.setFrequency_tmem (s : State) (f : Word) :
    (s.setFrequency f).tmem = s.tmem := rfl
@[simp] theorem State.setFrequency_otherPointers (s : State) (f : Word) :
    (s.setFrequency f).otherPointers = s.otherPointers := rfl
@[simp] theorem State.setFrequency_moves (s : State) (f : Word) :
    (s.setFrequency f).moves = s.moves := rfl
@[simp] theorem State.setFrequency_draws (s : State) (f : Word) :
    (s.setFrequency f).draws = s.draws := rfl

/-! ### `State.setOtherPointers` -/

@[simp] theorem State.setOtherPointers_cfg (s : State) (ps : List Word) :
    (s.setOtherPointers ps).cfg = s.cfg := rfl
@[simp] theorem State.setOtherPointers_phase (s : State) (ps : List Word) :
    (s.setOtherPointers ps).phase = s.phase := rfl
@[simp] theorem State.setOtherPointers_inc (s : State) (ps : List Word) :
    (s.setOtherPointers ps).inc = s.inc := rfl
@[simp] theorem State.setOtherPointers_gain1 (s : State) (ps : List Word) :
    (s.setOtherPointers ps).gain1 = s.gain1 := rfl
@[simp] theorem State.setOtherPointers_gain2 (s : State) (ps : List Word) :
    (s.setOtherPointers ps).gain2 = s.gain2 := rfl
@[simp] theorem State.setOtherPointers_wave1 (s : State) (ps : List Word) :
    (s.setOtherPointers ps).wave1 = s.wave1 := rfl
@[simp] theorem State.setOtherPointers_bass1 (s : State) (ps : List Word) :
    (s.setOtherPointers ps).bass1 = s.bass1 := rfl
@[simp] theorem State.setOtherPointers_wave2 (s : State) (ps : List Word) :
    (s.setOtherPointers ps).wave2 = s.wave2 := rfl
@[simp] theorem State.setOtherPointers_bass2 (s : State) (ps : List Word) :
    (s.setOtherPointers ps).bass2 = s.bass2 := rfl
@[simp] theorem State.setOtherPointers_status (s : State) (ps : List Word) :
    (s.setOtherPointers ps).status = s.status := rfl
@[simp] theorem State.setOtherPointers_fhdrA (s : State) (ps : List Word) :
    (s.setOtherPointers ps).fhdrA = s.fhdrA := rfl
@[simp] theorem State.setOtherPointers_fhdrC (s : State) (ps : List Word) :
    (s.setOtherPointers ps).fhdrC = s.fhdrC := rfl
@[simp] theorem State.setOtherPointers_pendA (s : State) (ps : List Word) :
    (s.setOtherPointers ps).pendA = s.pendA := rfl
@[simp] theorem State.setOtherPointers_pendC (s : State) (ps : List Word) :
    (s.setOtherPointers ps).pendC = s.pendC := rfl
@[simp] theorem State.setOtherPointers_respA (s : State) (ps : List Word) :
    (s.setOtherPointers ps).respA = s.respA := rfl
@[simp] theorem State.setOtherPointers_respC (s : State) (ps : List Word) :
    (s.setOtherPointers ps).respC = s.respC := rfl
@[simp] theorem State.setOtherPointers_tmem (s : State) (ps : List Word) :
    (s.setOtherPointers ps).tmem = s.tmem := rfl
@[simp] theorem State.setOtherPointers_otherPointers (s : State) (ps : List Word) :
    (s.setOtherPointers ps).otherPointers = ps.map (pointerOperand s.cfg) := rfl
@[simp] theorem State.setOtherPointers_moves (s : State) (ps : List Word) :
    (s.setOtherPointers ps).moves = s.moves := rfl
@[simp] theorem State.setOtherPointers_draws (s : State) (ps : List Word) :
    (s.setOtherPointers ps).draws = s.draws := rfl

/-! ### `State.dropMove` -/

@[simp] theorem State.dropMove_cfg (s : State) :
    (s.dropMove).cfg = s.cfg := rfl
@[simp] theorem State.dropMove_phase (s : State) :
    (s.dropMove).phase = s.phase := rfl
@[simp] theorem State.dropMove_inc (s : State) :
    (s.dropMove).inc = s.inc := rfl
@[simp] theorem State.dropMove_gain1 (s : State) :
    (s.dropMove).gain1 = s.gain1 := rfl
@[simp] theorem State.dropMove_gain2 (s : State) :
    (s.dropMove).gain2 = s.gain2 := rfl
@[simp] theorem State.dropMove_wave1 (s : State) :
    (s.dropMove).wave1 = s.wave1 := rfl
@[simp] theorem State.dropMove_bass1 (s : State) :
    (s.dropMove).bass1 = s.bass1 := rfl
@[simp] theorem State.dropMove_wave2 (s : State) :
    (s.dropMove).wave2 = s.wave2 := rfl
@[simp] theorem State.dropMove_bass2 (s : State) :
    (s.dropMove).bass2 = s.bass2 := rfl
@[simp] theorem State.dropMove_status (s : State) :
    (s.dropMove).status = s.status := rfl
@[simp] theorem State.dropMove_fhdrA (s : State) :
    (s.dropMove).fhdrA = s.fhdrA := rfl
@[simp] theorem State.dropMove_fhdrC (s : State) :
    (s.dropMove).fhdrC = s.fhdrC := rfl
@[simp] theorem State.dropMove_pendA (s : State) :
    (s.dropMove).pendA = s.pendA := rfl
@[simp] theorem State.dropMove_pendC (s : State) :
    (s.dropMove).pendC = s.pendC := rfl
@[simp] theorem State.dropMove_respA (s : State) :
    (s.dropMove).respA = s.respA := rfl
@[simp] theorem State.dropMove_respC (s : State) :
    (s.dropMove).respC = s.respC := rfl
@[simp] theorem State.dropMove_tmem (s : State) :
    (s.dropMove).tmem = s.tmem := rfl
@[simp] theorem State.dropMove_otherPointers (s : State) :
    (s.dropMove).otherPointers = s.otherPointers := rfl
@[simp] theorem State.dropMove_moves (s : State) :
    (s.dropMove).moves = s.moves.tail := rfl
@[simp] theorem State.dropMove_draws (s : State) :
    (s.dropMove).draws = s.draws := rfl

/-! ### `State.resetInstance` -/

@[simp] theorem State.resetInstance_cfg (s : State) (seeds : Lanes Word) :
    (s.resetInstance seeds).cfg = s.cfg := rfl
@[simp] theorem State.resetInstance_phase (s : State) (seeds : Lanes Word) :
    (s.resetInstance seeds).phase = seeds := rfl
@[simp] theorem State.resetInstance_inc (s : State) (seeds : Lanes Word) :
    (s.resetInstance seeds).inc = Vector.replicate 7 0#32 := rfl
@[simp] theorem State.resetInstance_gain1 (s : State) (seeds : Lanes Word) :
    (s.resetInstance seeds).gain1 = Vector.replicate 7 0#8 := rfl
@[simp] theorem State.resetInstance_gain2 (s : State) (seeds : Lanes Word) :
    (s.resetInstance seeds).gain2 = Vector.replicate 7 0#8 := rfl
@[simp] theorem State.resetInstance_wave1 (s : State) (seeds : Lanes Word) :
    (s.resetInstance seeds).wave1 = 0#32 := rfl
@[simp] theorem State.resetInstance_bass1 (s : State) (seeds : Lanes Word) :
    (s.resetInstance seeds).bass1 = 0#32 := rfl
@[simp] theorem State.resetInstance_wave2 (s : State) (seeds : Lanes Word) :
    (s.resetInstance seeds).wave2 = 0#32 := rfl
@[simp] theorem State.resetInstance_bass2 (s : State) (seeds : Lanes Word) :
    (s.resetInstance seeds).bass2 = 0#32 := rfl
@[simp] theorem State.resetInstance_status (s : State) (seeds : Lanes Word) :
    (s.resetInstance seeds).status = 0#32 := rfl
@[simp] theorem State.resetInstance_fhdrA (s : State) (seeds : Lanes Word) :
    (s.resetInstance seeds).fhdrA = 0#32 := rfl
@[simp] theorem State.resetInstance_fhdrC (s : State) (seeds : Lanes Word) :
    (s.resetInstance seeds).fhdrC = 0#32 := rfl
@[simp] theorem State.resetInstance_pendA (s : State) (seeds : Lanes Word) :
    (s.resetInstance seeds).pendA = [] := rfl
@[simp] theorem State.resetInstance_pendC (s : State) (seeds : Lanes Word) :
    (s.resetInstance seeds).pendC = [] := rfl
@[simp] theorem State.resetInstance_respA (s : State) (seeds : Lanes Word) :
    (s.resetInstance seeds).respA = [] := rfl
@[simp] theorem State.resetInstance_respC (s : State) (seeds : Lanes Word) :
    (s.resetInstance seeds).respC = [] := rfl
@[simp] theorem State.resetInstance_tmem (s : State) (seeds : Lanes Word) :
    (s.resetInstance seeds).tmem = s.tmem := rfl
@[simp] theorem State.resetInstance_otherPointers (s : State) (seeds : Lanes Word) :
    (s.resetInstance seeds).otherPointers = s.otherPointers := rfl
@[simp] theorem State.resetInstance_moves (s : State) (seeds : Lanes Word) :
    (s.resetInstance seeds).moves = s.moves := rfl
@[simp] theorem State.resetInstance_draws (s : State) (seeds : Lanes Word) :
    (s.resetInstance seeds).draws = s.draws := rfl

/-! ### `State.deliver` -/

@[simp] theorem State.deliver_cfg (s : State) (p : Port) (w : Word) :
    (s.deliver p w).cfg = s.cfg := by
  unfold State.deliver; split <;> simp
@[simp] theorem State.deliver_phase (s : State) (p : Port) (w : Word) :
    (s.deliver p w).phase = s.phase := by
  unfold State.deliver; split <;> simp
@[simp] theorem State.deliver_inc (s : State) (p : Port) (w : Word) :
    (s.deliver p w).inc = s.inc := by
  unfold State.deliver; split <;> simp
@[simp] theorem State.deliver_gain1 (s : State) (p : Port) (w : Word) :
    (s.deliver p w).gain1 = s.gain1 := by
  unfold State.deliver; split <;> simp
@[simp] theorem State.deliver_gain2 (s : State) (p : Port) (w : Word) :
    (s.deliver p w).gain2 = s.gain2 := by
  unfold State.deliver; split <;> simp
@[simp] theorem State.deliver_wave1 (s : State) (p : Port) (w : Word) :
    (s.deliver p w).wave1 = s.wave1 := by
  unfold State.deliver; split <;> simp
@[simp] theorem State.deliver_bass1 (s : State) (p : Port) (w : Word) :
    (s.deliver p w).bass1 = s.bass1 := by
  unfold State.deliver; split <;> simp
@[simp] theorem State.deliver_wave2 (s : State) (p : Port) (w : Word) :
    (s.deliver p w).wave2 = s.wave2 := by
  unfold State.deliver; split <;> simp
@[simp] theorem State.deliver_bass2 (s : State) (p : Port) (w : Word) :
    (s.deliver p w).bass2 = s.bass2 := by
  unfold State.deliver; split <;> simp
@[simp] theorem State.deliver_status (s : State) (p : Port) (w : Word) :
    (s.deliver p w).status = s.status := by
  unfold State.deliver; split <;> simp
@[simp] theorem State.deliver_fhdrA (s : State) (p : Port) (w : Word) :
    (s.deliver p w).fhdrA = s.fhdrA := by
  unfold State.deliver; split <;> simp
@[simp] theorem State.deliver_fhdrC (s : State) (p : Port) (w : Word) :
    (s.deliver p w).fhdrC = s.fhdrC := by
  unfold State.deliver; split <;> simp
@[simp] theorem State.deliver_pendA (s : State) (p : Port) (w : Word) :
    (s.deliver p w).pendA = if p = .a ∧ s.halted .a = false then s.pendA ++ [w] else s.pendA := by
  cases p <;> unfold State.deliver <;> split <;> simp_all [State.pend]
@[simp] theorem State.deliver_pendC (s : State) (p : Port) (w : Word) :
    (s.deliver p w).pendC = if p = .c ∧ s.halted .c = false then s.pendC ++ [w] else s.pendC := by
  cases p <;> unfold State.deliver <;> split <;> simp_all [State.pend]
@[simp] theorem State.deliver_respA (s : State) (p : Port) (w : Word) :
    (s.deliver p w).respA = s.respA := by
  unfold State.deliver; split <;> simp
@[simp] theorem State.deliver_respC (s : State) (p : Port) (w : Word) :
    (s.deliver p w).respC = s.respC := by
  unfold State.deliver; split <;> simp
@[simp] theorem State.deliver_tmem (s : State) (p : Port) (w : Word) :
    (s.deliver p w).tmem = s.tmem := by
  unfold State.deliver; split <;> simp
@[simp] theorem State.deliver_otherPointers (s : State) (p : Port) (w : Word) :
    (s.deliver p w).otherPointers = s.otherPointers := by
  unfold State.deliver; split <;> simp
@[simp] theorem State.deliver_moves (s : State) (p : Port) (w : Word) :
    (s.deliver p w).moves = s.moves := by
  unfold State.deliver; split <;> simp
@[simp] theorem State.deliver_draws (s : State) (p : Port) (w : Word) :
    (s.deliver p w).draws = s.draws := by
  unfold State.deliver; split <;> simp

/-! ### Readings that depend on one field -/

theorem State.halted_eq_of_status {s t : State} (h : t.status = s.status) (p : Port) :
    t.halted p = s.halted p := by unfold State.halted; rw [h]

@[simp] theorem State.setPend_pend (s : State) (p : Port) (ws : List Word) :
    (s.setPend p ws).pend p = ws := by cases p <;> rfl

theorem State.setPend_pend_other (s : State) {p q : Port} (ws : List Word) (h : q ≠ p) :
    (s.setPend p ws).pend q = s.pend q := by cases p <;> cases q <;> first | rfl | contradiction

@[simp] theorem State.dropMove_pend (s : State) (p : Port) : s.dropMove.pend p = s.pend p := by
  cases p <;> rfl

@[simp] theorem State.dropMove_halted (s : State) (p : Port) :
    s.dropMove.halted p = s.halted p := rfl

end Sys2Proof.Machine
end

