-- ==== Sys2Proof/Laws/Values.lean ====
section
/-! SUPPORT. One spec lemma for each function on bare values: what the provers cite in place of
unfolding it. -/

namespace Sys2Proof.Machine

theorem Config.cells_pos (c : Config) : 0 < c.cells := Nat.two_pow_pos _

theorem Config.space_pos (c : Config) : 0 < c.space := Nat.two_pow_pos _

/-- R142: the index is the cell position modulo N. -/
theorem tableIndex_eq (c : Config) (q : Word) : tableIndex c q = q.toNat / 2 ^ 16 % c.cells := by
  simp only [tableIndex, Config.cells, Nat.and_two_pow_sub_one_eq_mod, Nat.shiftRight_eq_div_pow]

theorem tableIndex_lt (c : Config) (q : Word) : tableIndex c q < c.cells := by
  rw [tableIndex_eq]; exact Nat.mod_lt _ (Config.cells_pos c)

theorem cellAddress_lt (c : Config) (p : Word) (idx : Nat) : cellAddress c p idx < c.space :=
  Nat.mod_lt _ (Config.space_pos c)

/-- R20 and R150: the advance is addition modulo 2^32. -/
theorem advancedPhase_eq (p i : Word) : advancedPhase p i = p + i := by
  apply BitVec.eq_of_toNat_eq; simp [advancedPhase, BitVec.toNat_add]

theorem readPhase_eq (p off : Word) : readPhase p off = p + off := by
  apply BitVec.eq_of_toNat_eq; simp [readPhase, BitVec.toNat_add]

theorem pointerOperand_toNat (c : Config) (w : Word) (h : c.addrBits ≤ 32) :
    (pointerOperand c w).toNat = w.toNat % c.space := by
  have : w.toNat % c.space < 2 ^ 32 :=
    Nat.lt_of_lt_of_le (Nat.mod_lt _ (Config.space_pos c)) (Nat.pow_le_pow_right (by omega) h)
  rw [pointerOperand, BitVec.toNat_ofNat, Nat.mod_eq_of_lt this]

/-- R107 and R45: a pointer operand is an A-bit value, in a well-formed configuration or not. -/
theorem pointerOperand_lt (c : Config) (w : Word) : (pointerOperand c w).toNat < c.space := by
  have : w.toNat % c.space < c.space := Nat.mod_lt _ (Config.space_pos c)
  exact Nat.lt_of_le_of_lt (by simpa [pointerOperand] using Nat.mod_le _ _) this

theorem octaveStack_get (v : Word) (i : Fin 7) : (octaveStack v)[i] = v >>> i.val := by
  simp [octaveStack]

theorem gainStack_get (levels : Lanes Half) (scale : Int) (i : Fin 7) :
    (gainStack levels scale)[i] = gainValue levels[6 - i.val] scale := by
  simp [gainStack]

theorem replicate_get {α : Type} (v : α) (i : Fin 7) : (Vector.replicate 7 v)[i] = v := by
  simp

/-- R201: harmonic i takes drawbar level g_(6-i). -/
theorem gainStack_reversed (g0 g1 g2 g3 g4 g5 g6 : Half) (scale : Int) (i : Fin 7) :
    (gainStack #v[g0, g1, g2, g3, g4, g5, g6] scale)[i] =
      gainValue #v[g6, g5, g4, g3, g2, g1, g0][i] scale := by
  rw [gainStack_get]
  congr 1
  fin_cases i <;> rfl

/-- R186: the two branches of `Inc0`. -/
theorem firstIncrement_toNat (c : Config) (f : Word) :
    (firstIncrement c f).toNat =
      if c.log2Rate ≤ c.log2Cells then f.toNat * 2 ^ (c.log2Cells - c.log2Rate) % 2 ^ 32
      else f.toNat / 2 ^ (c.log2Rate - c.log2Cells) := by
  unfold firstIncrement
  split <;> simp [Nat.shiftRight_eq_div_pow]

/-- R189: the biased note modulo 2^16. -/
theorem biasedNote_toNat (note : Half) :
    ((biasedNote note).toNat : Int) = (note.toInt + 96) % 2 ^ 16 := by
  rw [biasedNote, BitVec.toNat_ofInt, Int.toNat_of_nonneg (Int.emod_nonneg _ (by norm_num))]
  norm_num

/-- R191: the detuned frequency modulo 2^32. -/
theorem detuned_toNat (f0 shift : Word) :
    ((detuned f0 shift).toNat : Int) =
      (f0.toNat + Int.tdiv (f0.toNat * shift.toInt) 1023) % 2 ^ 32 := by
  rw [detuned, BitVec.toNat_ofInt, Int.toNat_of_nonneg (Int.emod_nonneg _ (by norm_num))]
  norm_num

/-- R152: the phase offset modulo 2^32. -/
theorem phaseOffset_toNat (c : Config) (proportion : Word) :
    ((phaseOffset c proportion).toNat : Int) =
      proportion.toInt * (c.cells : Int) % 2 ^ 32 := by
  rw [phaseOffset, BitVec.toNat_ofInt, Int.toNat_of_nonneg (Int.emod_nonneg _ (by norm_num))]
  norm_num

/-- R203: the gain as the floor of the product over 1024, wrapped to 8 signed bits. -/
theorem gainValue_toInt_wrapped (g : Half) (scale : Int) :
    (gainValue g scale).toInt = (g.toNat * scale / 1024 + 2 ^ 7) % 2 ^ 8 - 2 ^ 7 := by
  unfold gainValue floorShift
  rw [BitVec.toInt_ofInt, Int.bmod_def]
  norm_num
  omega

/-- R145 and R147: the response word as the floor of the sum over 4, wrapped to 16 signed bits. -/
theorem sampleWord_toInt (acc : Int) :
    (sampleWord (sampleOfSum acc)).toInt = (acc / 4 + 2 ^ 15) % 2 ^ 16 - 2 ^ 15 := by
  unfold sampleWord sampleOfSum floorShift
  rw [BitVec.toInt_signExtend_of_le (by omega), BitVec.toInt_ofInt, Int.bmod_def]
  norm_num
  omega

/-- R203 for a scale that is not negative and a level and a scale within the contract: no reduction. -/
theorem gainValue_toInt {g : Half} {scale : Int} (h0 : 0 ≤ scale) (h1 : scale ≤ 36)
    (hg : g.toNat ≤ 1023) : (gainValue g scale).toInt = (g.toNat : Int) * scale / 1024 := by
  have hlo : 0 ≤ (g.toNat : Int) * scale := by positivity
  have hhi : (g.toNat : Int) * scale ≤ 1023 * 36 := by
    have : (g.toNat : Int) ≤ 1023 := by exact_mod_cast hg
    nlinarith
  have hs : floorShift ((g.toNat : Int) * scale) 10 = (g.toNat : Int) * scale / 1024 := rfl
  rw [gainValue, hs, BitVec.toInt_ofInt]
  generalize (g.toNat : Int) * scale = x at hlo hhi
  rw [Int.bmod_def]
  omega

end Sys2Proof.Machine
end

