-- ==== Sys2Proof/Laws/Ops.lean ====
section
/-! SUPPORT. What each shared operation and each step can do, said once: the inversion lemmas that
proofs over all steps cite. -/

namespace Sys2Proof.Machine

/-- R141: the sum of the fourteen weighted reads, harmonic by harmonic. -/
theorem State.mixSum_eq (s : State) (p : Lanes Word) (off : Word) :
    s.mixSum p off = s.laneTerm p off 0 + s.laneTerm p off 1 + s.laneTerm p off 2 +
      s.laneTerm p off 3 + s.laneTerm p off 4 + s.laneTerm p off 5 + s.laneTerm p off 6 := by
  simp [State.mixSum, harmonics]

/-- R72 where the platform backs the address. -/
theorem State.tableRead_mapped {s : State} {addr : Nat} (n : Nat)
    (h : isMapped s.cfg addr = true) : s.tableRead n addr = Memory.read s.tmem addr := by
  simp [State.tableRead, h]

theorem State.laneAddress1_lt (s : State) (p : Lanes Word) (off : Word) (i : Fin 7) :
    s.laneAddress1 p off i < s.cfg.space := cellAddress_lt _ _ _

theorem State.laneAddress2_lt (s : State) (p : Lanes Word) (off : Word) (i : Fin 7) :
    s.laneAddress2 p off i < s.cfg.space := cellAddress_lt _ _ _

/-- The mix reads the parameters, the gains, the pointers, table memory and the free values only. -/
theorem State.mixSum_congr {s t : State} (hc : t.cfg = s.cfg) (h1 : t.gain1 = s.gain1)
    (h2 : t.gain2 = s.gain2) (hw1 : t.wave1 = s.wave1) (hb1 : t.bass1 = s.bass1)
    (hw2 : t.wave2 = s.wave2) (hb2 : t.bass2 = s.bass2) (hm : t.tmem = s.tmem)
    (hd : t.draws = s.draws) (p : Lanes Word) (off : Word) : t.mixSum p off = s.mixSum p off := by
  simp [State.mixSum_eq, State.laneTerm, State.laneAddress1, State.laneAddress2, State.laneTables,
    State.laneIndex, State.tableRead, hc, h1, h2, hw1, hb1, hw2, hb2, hm, hd]

/-- Advancing the phases changes nothing that the mix reads beside its phase argument. -/
@[simp] theorem State.advance_mixSum (s : State) (p : Lanes Word) (off : Word) :
    s.advance.mixSum p off = s.mixSum p off :=
  State.mixSum_congr rfl rfl rfl rfl rfl rfl rfl rfl rfl p off

@[simp] theorem State.advance_mix (s : State) (p : Lanes Word) (off : Word) :
    s.advance.mix p off = s.mix p off := by simp [State.mix]

/-- R81: what an allowed host write is, and what it does. -/
theorem State.hostWrite_next {s t : State} {addr : Nat} {v : Byte}
    (h : s.hostWrite addr v = .next t) :
    addr < s.cfg.space ∧ isMapped s.cfg addr = true ∧ s.isReferenced addr = false ∧
      t = { s with tmem := Memory.write s.tmem addr v } := by
  unfold State.hostWrite at h
  split at h
  · cases h
  · rename_i h0
    split at h
    · cases h
    · rename_i h1
      split at h
      · cases h
      · rename_i h2
        cases h
        exact ⟨by omega, by simpa using h1, by simpa using h2, rfl⟩

/-- The service of a port does nothing, or takes the illegal-command fault, or performs a command. -/
theorem State.servePort_cases {s t : State} {p : Port} (h : s.servePort p = .next t) :
    (s.halted p = true ∧ t = s) ∨
    (s.halted p = false ∧ decode p (s.pend p) = .waiting ∧ t = s) ∨
    (∃ cause hdr, s.halted p = false ∧ decode p (s.pend p) = .illegal cause hdr ∧
      t = s.illegalCommand p cause hdr) ∨
    (∃ i rest, s.halted p = false ∧ decode p (s.pend p) = .command i rest ∧
      exec i (s.setPend p rest) = .next t) := by
  unfold State.servePort at h
  split at h
  · rename_i hh
    cases h
    exact .inl ⟨hh, rfl⟩
  · rename_i hh
    split at h
    · rename_i hd
      cases h
      exact .inr (.inl ⟨hh, hd, rfl⟩)
    · rename_i cause hdr hd
      cases h
      exact .inr (.inr (.inl ⟨cause, hdr, hh, hd, rfl⟩))
    · rename_i i rest hd
      exact .inr (.inr (.inr ⟨i, rest, hh, hd, h⟩))

/-- R85: everything a step can do. -/
theorem step_cases {s t : State} (h : step s = .next t) :
    s.cfg.wellFormed = true ∧
    ((∃ p w, s.nextMove = .deliver p w ∧ t = s.dropMove.deliver p w) ∨
     (∃ p, s.nextMove = .serve p ∧ s.dropMove.servePort p = .next t) ∨
     (∃ addr v, s.nextMove = .tableWrite addr v ∧ s.dropMove.hostWrite addr v = .next t) ∨
     (∃ p, s.nextMove = .consume p ∧ t = s.dropMove.consume p) ∨
     (∃ seeds, s.nextMove = .reset seeds ∧ t = s.dropMove.resetInstance seeds) ∨
     (∃ ps, s.nextMove = .otherInstances ps ∧ t = s.dropMove.setOtherPointers ps)) := by
  unfold step State.stepOnce at h
  split at h
  · cases h
  · rename_i hw
    refine ⟨hw, ?_⟩
    unfold State.perform at h
    split at h
    · rename_i p w hm; cases h; exact .inl ⟨p, w, hm, rfl⟩
    · rename_i p hm; exact .inr (.inl ⟨p, hm, h⟩)
    · rename_i addr v hm; exact .inr (.inr (.inl ⟨addr, v, hm, h⟩))
    · rename_i p hm; cases h; exact .inr (.inr (.inr (.inl ⟨p, hm, rfl⟩)))
    · rename_i seeds hm; cases h; exact .inr (.inr (.inr (.inr (.inl ⟨seeds, hm, rfl⟩))))
    · rename_i ps hm; cases h; exact .inr (.inr (.inr (.inr (.inr ⟨ps, hm, rfl⟩))))

/-- A run of the host's interface that starts with a step. -/
theorem core_run_succ {M : Host.Core} {n : Nat} {s t : M.State} (h : M.step s = .next t) :
    M.run (n + 1) s = M.run n t := by simp [Host.Core.run, h]

/-- A run of the host's interface that ends in a state started with a step. -/
theorem core_run_succ_inv {M : Host.Core} {n : Nat} {s u : M.State}
    (h : M.run (n + 1) s = .next u) : ∃ t, M.step s = .next t ∧ M.run n t = .next u := by
  cases hs : M.step s with
  | next t => exact ⟨t, rfl, by simpa [Host.Core.run, hs] using h⟩
  | fault r => simp [Host.Core.run, hs] at h
  | refused r => simp [Host.Core.run, hs] at h

theorem run_zero (s : State) : Sys2Proof.core.run 0 s = .next s := rfl

theorem run_succ {n : Nat} {s t : State} (h : step s = .next t) :
    Sys2Proof.core.run (n + 1) s = Sys2Proof.core.run n t :=
  core_run_succ (M := Sys2Proof.core) h

theorem run_succ_inv {n : Nat} {s u : State} (h : Sys2Proof.core.run (n + 1) s = .next u) :
    ∃ t : State, step s = .next t ∧ Sys2Proof.core.run n t = .next u :=
  core_run_succ_inv (M := Sys2Proof.core) h

/-- A property that every step keeps holds at the end of every run: the induction, done once. -/
theorem run_keeps {P : State → Prop} (hstep : ∀ s t, P s → step s = .next t → P t) :
    ∀ (n : Nat) (s t : State), P s → Sys2Proof.core.run n s = .next t → P t := by
  intro n
  induction n with
  | zero => intro s t hs h; cases h; exact hs
  | succ n ih =>
    intro s t hs h
    obtain ⟨u, hu, h⟩ := run_succ_inv h
    exact ih u t (hstep s u hs hu) h

/-- What no command writes: the parameters, the fault headers, the packet buffers, table memory, the
other instances and the moves to come. -/
theorem exec_untouched {i : Instr} {s t : State} (h : exec i s = .next t) :
    t.cfg = s.cfg ∧ t.fhdrA = s.fhdrA ∧ t.fhdrC = s.fhdrC ∧ t.pendA = s.pendA ∧
      t.pendC = s.pendC ∧ t.tmem = s.tmem ∧ t.otherPointers = s.otherPointers ∧
      t.moves = s.moves := by
  cases i <;> cases h <;> simp

/-- No command writes a fault bit, a cause or a reserved bit of STATUS (R49). -/
theorem exec_keepsFaultFields {i : Instr} {s t : State} (h : exec i s = .next t) (p : Port) :
    faultBit p t.status = faultBit p s.status ∧ causeField p t.status = causeField p s.status ∧
      t.status &&& reservedMask = s.status &&& reservedMask := by
  have hr {m : Word} (st : Word) (hm : m &&& reservedMask = 0#32) :=
    reserved_withSetBit (m := m) st hm
  cases i <;> cases h <;>
    simp [hr (m := freqSetMask) _ (by decide), hr (m := tblSetMask) _ (by decide),
      hr (m := gainSetMask) _ (by decide)]

end Sys2Proof.Machine
end

