-- ==== Sys2Proof/Laws/PerInstr.lean ====
section
/-! SUPPORT. A statement about every command as syntax: its encoded packet is a legal header of its
own port and as many operand words as the opcode map gives (R103, R108, R109). -/

namespace Sys2Proof.Laws

/-- The packet of a command: a legal header of its row and that row's operand words. -/
def EncodedPacket.Statement (i : Instr) : Prop :=
  ∃ h ws, encode i = h :: ws ∧ headerCause i.opcode.port h = none ∧
    Opcode.ofCode? (headerOpc h) = some i.opcode ∧ ws.length = i.opcode.operandWords

theorem EncodedPacket.of_header {i : Instr} {imm : Half} {ws : List Word}
    (he : encode i = packHeader i.opcode imm :: ws)
    (hi : i.opcode.usesImm = false → imm = 0#16) (hw : ws.length = i.opcode.operandWords) :
    EncodedPacket.Statement i :=
  ⟨_, ws, he, headerCause_packHeader _ _ hi, by simp, hw⟩

theorem EncodedPacket.next : EncodedPacket.Statement .next :=
  EncodedPacket.of_header (imm := 0#16) rfl (fun _ => rfl) rfl

theorem EncodedPacket.peek : EncodedPacket.Statement .peek :=
  EncodedPacket.of_header (imm := 0#16) rfl (fun _ => rfl) rfl

theorem EncodedPacket.phmod (proportion : Word) : EncodedPacket.Statement (.phmod proportion) :=
  EncodedPacket.of_header (imm := 0#16) rfl (fun _ => rfl) rfl

theorem EncodedPacket.setwt (w1 b1 w2 b2 : Word) :
    EncodedPacket.Statement (.setwt w1 b1 w2 b2) :=
  EncodedPacket.of_header (imm := 0#16) rfl (fun _ => rfl) rfl

theorem EncodedPacket.setfreq (frequency : Word) :
    EncodedPacket.Statement (.setfreq frequency) :=
  EncodedPacket.of_header (imm := 0#16) rfl (fun _ => rfl) rfl

theorem EncodedPacket.setnote (note : Half) : EncodedPacket.Statement (.setnote note) :=
  EncodedPacket.of_header (imm := note) rfl (fun h => nomatch h) rfl

theorem EncodedPacket.setnotesh (note : Half) (shift : Word) :
    EncodedPacket.Statement (.setnotesh note shift) :=
  EncodedPacket.of_header (imm := note) rfl (fun h => nomatch h) rfl

theorem EncodedPacket.setgains (g0 g1 g2 g3 g4 g5 g6 mix : Half) :
    EncodedPacket.Statement (.setgains g0 g1 g2 g3 g4 g5 g6 mix) :=
  EncodedPacket.of_header (imm := 0#16) rfl (fun _ => rfl) rfl

theorem EncodedPacket.rdreg (reg : Half) : EncodedPacket.Statement (.rdreg reg) :=
  EncodedPacket.of_header (imm := reg) rfl (fun h => nomatch h) rfl

end Sys2Proof.Laws
end

