-- ==== Sys2Proof/Laws/Sample.lean ====
section
/-! SUPPORT. The mix in the words of the rules: its indices, its addresses and its sum are those that
the statements about sample commands are written in (R141, R142, R73). -/

namespace Sys2Proof.Machine

theorem State.laneIndex_eq (s : State) (p : Lanes Word) (off : Word) (i : Fin 7) :
    s.laneIndex p off i = s.indexAt p off i := by
  simp [State.laneIndex, State.indexAt, tableIndex_eq, readPhase, Config.cells]

theorem State.laneAddress1_eq (s : State) (p : Lanes Word) (off : Word) (i : Fin 7) :
    s.laneAddress1 p off i = s.cell1At p off i := by
  have h : i.val ≤ 5 ↔ ¬ i = 6 := by omega
  simp only [State.laneAddress1, State.cell1At, cellAddress, State.laneIndex_eq, State.laneTables,
    Config.space]
  by_cases hi : i = 6 <;> simp [hi, h]

theorem State.laneAddress2_eq (s : State) (p : Lanes Word) (off : Word) (i : Fin 7) :
    s.laneAddress2 p off i = s.cell2At p off i := by
  have h : i.val ≤ 5 ↔ ¬ i = 6 := by omega
  simp only [State.laneAddress2, State.cell2At, cellAddress, State.laneIndex_eq, State.laneTables,
    Config.space]
  by_cases hi : i = 6 <;> simp [hi, h]

theorem State.mixSum_eq_sumAt (s : State) (p : Lanes Word) (off : Word) :
    s.mixSum p off = s.sumAt p off := by
  rw [State.mixSum_eq, State.sumAt]
  simp only [Fin.sum_univ_seven, State.laneTerm, State.laneAddress1_eq, State.laneAddress2_eq]

/-- The offset PHMOD reads at, as a statement writes it, is the one its meaning computes (R152). -/
@[simp] theorem transientOffset_phmod (c : Config) (proportion : Word) :
    (Instr.phmod proportion).transientOffset c = phaseOffset c proportion := by
  simp [Instr.transientOffset, phaseOffset, Config.cells]

@[simp] theorem transientOffset_next (c : Config) : Instr.next.transientOffset c = 0#32 := rfl

@[simp] theorem transientOffset_peek (c : Config) : Instr.peek.transientOffset c = 0#32 := rfl

/-- A harmonic's term of the mix is the products of its two reads (R141). -/
theorem State.laneTerm_eq_products (s : State) (p : Lanes Word) (off : Word) (i : Fin 7) :
    s.laneTerm p off i =
      s.readProduct p off ⟨2 * i.val, by omega⟩ + s.readProduct p off ⟨2 * i.val + 1, by omega⟩ := by
  have h : (⟨(2 * i.val + 1) / 2, by omega⟩ : Fin 7) = i := Fin.ext (by simp; omega)
  simp [State.laneTerm, State.readProduct, State.laneAddress1_eq, State.laneAddress2_eq, h]

theorem State.mix_respondsTo (s : State) (p : Lanes Word) (off : Word) :
    RespondsTo (sampleWord (s.mix p off)) (s.sumAt p off) := by
  rw [RespondsTo, State.mix, State.mixSum_eq_sumAt, sampleWord_toInt]

end Sys2Proof.Machine
end

