-- ==== Sys2Proof/Tests/Slice0.lean ====
section
/-! SUPPORT. Tests of the model against the spec's own vectors (95_test_vectors.md) and encodings
(30_encoding.md rule R114), the well-formedness smoke test, and a witness for the hypotheses of each
statement that has some. -/

namespace Sys2Proof.Tests

open Sys2Proof.Machine

/-! ### States of test configuration T1 (95_test_vectors.md section 2) -/

/-- T1's table memory; a cell of value 0 is not listed. -/
def tablesT1 : List Host.Cell :=
  [(1, 10), (2, 20), (3, 30), (4, 40), (5, 50), (6, 60), (7, 70)] ++
    [(8, 1), (9, 2), (10, 3), (11, 4), (12, 5), (13, 6), (14, 7), (15, 8)] ++
    [(16, 0x80), (17, 0x9C), (18, 0xB0), (19, 0xC4), (20, 0xD8), (21, 0xEC), (23, 0x7F)] ++
    [(24, 0xFF), (25, 0xFE), (26, 0xFD), (27, 0xFC), (28, 0xFB), (29, 0xFA), (30, 0xF9), (31, 0xF8)]

/-- A configuration of k, r and A with every address backed, and NTF_T at the biased notes the
vectors use. -/
def config (k r a : Nat) : Config where
  log2Cells := k
  log2Rate := r
  addrBits := a
  mapped := [⟨0, 2 ^ a⟩]
  ntfGiven := [(2#16, 0x00020000#32), (0#16, 0#32), (0xFFFF#16, 0xFFFF0000#32)]

/-- The state after reset with every seed 0, in a configuration of k, r and A, with T1's tables. -/
def zeroed (k r a : Nat) : State :=
  { State.reset with cfg := config k r a, phase := Vector.replicate 7 0#32, tmem := tablesT1 }

/-- T1 with the four tables installed (SETWT 0, 8, 16, 24). -/
def installed : State :=
  { zeroed 3 4 8 with wave1 := 0x00#32, bass1 := 0x08#32, wave2 := 0x10#32, bass2 := 0x18#32 }

/-- The increments of SETFREQ 0x20000 in T1. -/
def stackT1 : Lanes Word := #v[0x10000, 0x8000, 0x4000, 0x2000, 0x1000, 0x800, 0x400]

/-- The set-up of vectors N1 to N4: gain1[0] = gain1[6] = 35. -/
def playing : State := { installed with inc := stackT1, gain1 := #v[35, 0, 0, 0, 0, 0, 35] }

/-- The set-up of vectors H1 to H7: gain1[0] = gain2[0] = 17. -/
def crossfading : State :=
  { installed with
    inc := stackT1
    gain1 := #v[17, 0, 0, 0, 0, 0, 0]
    gain2 := #v[17, 0, 0, 0, 0, 0, 0] }

/-- What a test looks at in the state an outcome leads to. -/
def view {α : Type} (o : Host.Outcome State Fault Refusal) (f : State → α) : Option α :=
  (after o).map f

/-! ### Well-formedness: an ill-formed term for each check (R18, R112) -/

theorem test_cells_above_16_ill_formed : (config 17 4 8).wellFormed = false := by decide

theorem test_rate_above_31_ill_formed : (config 3 32 8).wellFormed = false := by decide

theorem test_no_address_bits_ill_formed : (config 3 4 0).wellFormed = false := by decide

theorem test_address_above_32_ill_formed : (config 3 4 33).wellFormed = false := by decide

theorem test_bounds_well_formed :
    (config 16 31 32).wellFormed = true ∧ (config 0 0 1).wellFormed = true := by decide

theorem test_pointer_operand_ill_formed :
    (Instr.setwt 0#32 0#32 256#32 0#32).wellFormed (config 3 4 8) = false := by decide

/-! ### Decoding, word by word from R101 to R103 and the examples of R114 -/

/-- NEXT: OPC 0x01, RSV 0, IMM16 0. -/
theorem test_decode_next :
    decode .a [0b00000000000000000000000000000001#32] = .command .next [] := by decide

theorem test_decode_peek :
    decode .a [0b00000000000000000000000000000010#32] = .command .peek [] := by decide

theorem test_decode_phmod :
    decode .a [0b00000000000000000000000000000011#32, 0xFFFF0000#32] =
      .command (.phmod (-65536#32)) [] := by decide

theorem test_decode_setwt :
    decode .c [0b00000000000000000000000000010000#32, 0#32, 8#32, 16#32, 24#32] =
      .command (.setwt 0#32 8#32 16#32 24#32) [] := by decide

theorem test_decode_setfreq :
    decode .c [0b00000000000000000000000000010001#32, 0x00020000#32] =
      .command (.setfreq 0x20000#32) [] := by decide

/-- SETNOTE -94: IMM16 0xFFA2, OPC 0x12. -/
theorem test_decode_setnote :
    decode .c [0b11111111101000100000000000010010#32] = .command (.setnote (-94#16)) [] := by
  decide

theorem test_decode_setnotesh :
    decode .c [0b11111111101000100000000000010011#32, 0x000003FF#32] =
      .command (.setnotesh (-94#16) 1023#32) [] := by decide

theorem test_decode_setgains :
    decode .c [0b00000000000000000000000000010100#32, 0x00020001#32, 0x00040003#32, 0x00060005#32,
      0x00200007#32] = .command (.setgains 1 2 3 4 5 6 7 32) [] := by decide

/-- RDREG STATUS: IMM16 0x0030, OPC 0x20. -/
theorem test_decode_rdreg :
    decode .c [0b00000000001100000000000000100000#32] = .command (.rdreg 0x30#16) [] := by decide

/-- Vectors X7 and X8: the lowest code wins. -/
theorem test_cause_priority :
    headerCause .a 0x00000120#32 = some .wrongPort ∧
      headerCause .a 0x00000115#32 = some .badOpcode := by decide

/-- The words of P4 and T7v. -/
theorem test_encode_examples :
    encode (.setwt 16 24 0 8) = [0x10#32, 0x10#32, 0x18#32, 0x00#32, 0x08#32] ∧
      encode (.setnotesh (-94) (-512)) = [0xFFA20013#32, 0xFFFFFE00#32] := by decide

theorem test_table_word_of_setnote :
    decodeTableWord 32 0xFFFF0012 = some (.setnote 0xFFFF#16) := by decide

theorem test_table_word_takes_zero_operands :
    decodeTableWord 32 0x00000014 = some (.setgains 0 0 0 0 0 0 0 0) ∧
      decodeTableWord 32 0x00000000 = none := by decide

/-- R77: byte 0 is bits 7:0. -/
theorem test_byte_view : wordOfBytes 0x78 0x56 0x34 0x12 = 0x12345678#32 := by decide

/-! ### Sample commands -/

/-- N1. -/
theorem test_next_vector_n1 : view (exec .next playing) (fun t => (t.respA, t.phase)) =
    some ([0x60#32], stackT1) := by decide

/-- N4: the phase wraps. -/
theorem test_next_wraps :
    view (exec .next { playing with phase := #v[0xFFFF8000, 0, 0, 0, 0, 0, 0] })
      (fun t => (t.respA, t.phase[0])) = some ([8#32], 0x8000#32) := by decide

/-- M23: the table runs into the next one; no fault. -/
theorem test_peek_out_of_range :
    view (exec .peek { playing with
      wave1 := 0x04#32, phase := #v[0x00050000, 0, 0, 0, 0, 0, 0], gain1 := #v[35, 0, 0, 0, 0, 0, 0] })
      (fun t => (t.respA, t.phase[0])) = some ([17#32], 0x00050000#32) := by decide

/-- P6, M15: the sum wraps to 16 bits. -/
theorem test_peek_sample_wraps :
    view (exec .peek { installed with
      wave1 := 16, bass1 := 16, wave2 := 16, bass2 := 16
      gain1 := Vector.replicate 7 0x80, gain2 := Vector.replicate 7 0x80 }) (·.respA) =
      some [0xFFFFE000#32] := by decide

/-- H1: a negative sum rounds toward minus infinity. -/
theorem test_phmod_vector_h1 :
    view (exec (.phmod 0x4000) crossfading) (fun t => (t.respA, t.phase[0])) =
      some ([0xFFFFFF80#32], 0x10000#32) := by decide

/-- H5: a negative proportion moves the index backward, with wrap. -/
theorem test_phmod_vector_h5 :
    view (exec (.phmod 0xFFFFC000) crossfading) (·.respA) = some [0x345#32] := by decide

/-! ### Setters -/

/-- W2: the low 8 bits of each operand word. -/
theorem test_setwt_low_bits :
    view (exec (.setwt 0x100 0x1FF 0x12345678 0xFFFFFFFF) (zeroed 3 4 8))
      (fun t => (t.pointers, t.status)) = some ([0x00, 0xFF, 0x78, 0xFF], 1#32) := by decide

/-- F1: 440 Hz at N = 256, R = 16384. -/
theorem test_setfreq_440 :
    view (exec (.setfreq 0x01B80000) (zeroed 8 14 8)) (fun t => (t.inc, t.status)) =
      some (#v[0x6E000, 0x37000, 0x1B800, 0xDC00, 0x6E00, 0x3700, 0x1B80], 2#32) := by decide

/-- F5: the multiply branch. -/
theorem test_setfreq_multiply :
    view (exec (.setfreq 0x40000000) (zeroed 8 7 8)) (·.inc) =
      some #v[0x80000000, 0x40000000, 0x20000000, 0x10000000, 0x08000000, 0x04000000,
        0x02000000] := by decide

/-- T1v. -/
theorem test_setnote_minus_94 :
    view (exec (.setnote (-94)) (zeroed 3 4 8)) (·.inc) = some stackT1 := by decide

/-- T3v: the bias wraps below -96. -/
theorem test_setnote_bias_wraps :
    view (exec (.setnote (-97)) (zeroed 3 4 8)) (fun t => t.inc[0]) = some 0x7FFF8000#32 := by
  decide

/-- P3: SETNOTESH -94, -512. -/
theorem test_setnotesh_truncates :
    view (exec (.setnotesh (-94) (-512)) (zeroed 3 4 8)) (·.inc) =
      some #v[0x7FE0, 0x3FF0, 0x1FF8, 0xFFC, 0x7FE, 0x3FF, 0x1FF] := by decide

/-- R192 and the detune table of 95_test_vectors.md section 3.7. -/
theorem test_detune_table :
    detuned 0x00010000 1 = 0x00010040#32 ∧ detuned 0x00010000 (-1) = 0x0000FFC0#32 ∧
      detuned 0xFFFFFFFF 1023 = 0xFFFFFFFE#32 ∧ detuned 0x00010000 (-2046) = 0xFFFF0000#32 ∧
      detuned 0x01B80000 57 = 0x01D08421#32 := by decide

/-- G1: drawbar g0 drives harmonic 6. -/
theorem test_setgains_reversed :
    view (exec (.setgains 1023 0 0 0 0 0 0 0) (zeroed 3 4 8))
      (fun t => (t.gain1, t.gain2, t.status)) =
      some (#v[0, 0, 0, 0, 0, 0, 35], Vector.replicate 7 0, 4#32) := by decide

/-- G11: mix far out of contract. -/
theorem test_setgains_out_of_contract :
    view (exec (.setgains 1023 0 0 0 0 0 0 65535) (zeroed 3 4 8))
      (fun t => (t.gain1[6], t.gain2[6])) = some (72#8, 0xDB#8) := by decide

/-! ### Readback -/

/-- R3v: a negative gain is sign-extended. -/
theorem test_rdreg_gain :
    view (exec (.rdreg 0x16) { zeroed 3 4 8 with gain1 := #v[0, 0, 0, 0, 0, 0, -20] }) (·.respC) =
      some [0xFFFFFFEC#32] := by decide

/-- R2v and R8v: CONFIG of T1, and a reserved number. -/
theorem test_rdreg_config_and_reserved :
    view (exec (.rdreg 0x31) (zeroed 3 4 8)) (·.respC) = some [0x07080403#32] ∧
      view (exec (.rdreg 0xFFFF) (zeroed 3 4 8)) (·.respC) = some [0#32] := by decide

/-! ### Ports, faults and host moves -/

/-- X4 and P5: SETFREQ on port A. -/
theorem test_wrong_port_fault :
    view (step { zeroed 3 4 8 with pendA := [0x11, 0x1], moves := [.serve .a] })
      (fun t => (t.status, t.fhdrA, t.pendA, t.respA)) = some (0x208#32, 0x11#32, [], []) := by
  decide

/-- X11: RSV on RDREG. -/
theorem test_bad_field_fault :
    view (step { zeroed 3 4 8 with pendC := [0x00000120], moves := [.serve .c] })
      (fun t => (t.status, t.fhdrC)) = some (0x3010#32, 0x120#32) := by decide

/-- An instruction placed for the next step runs in it. -/
theorem test_placed_instruction_runs :
    step (State.reset.withFetchWord 32 0x00300020) = exec (.rdreg 0x30) State.reset := by rfl

/-- R81: a host write to an unreferenced cell. -/
theorem test_host_write :
    view (step { installed with moves := [.tableWrite 0x28 5] })
      (fun t => (Memory.read t.tmem 0x28, Memory.read t.tmem 0x0F)) = some (5#8, 8#8) := by decide

/-- R284: a reset in the middle of a packet. -/
theorem test_reset_mid_packet :
    view (step { playing with
      pendC := [0x10, 0], respA := [7], moves := [.reset (Vector.replicate 7 9)] })
      (fun t => (t.pendC, t.respA, t.phase[6], t.gain1[0])) = some ([], [], 9#32, 0#8) := by decide

/-! ### Assembler (R112, R113) -/

theorem test_assemble_sample :
    assembleLine (config 3 4 8) "A: PHMOD -65536".toList = some (.a, .phmod 0xFFFF0000) := by decide

theorem test_assemble_gains :
    assembleLine (config 3 4 8) "SETGAINS 1, 2, 3, 4, 5, 6, 7, 0x20".toList =
      some (.c, .setgains 1 2 3 4 5 6 7 32) := by decide

theorem test_assemble_range :
    assembleLine (config 3 4 8) "SETWT 0, 8, 16, 256".toList = none ∧
      assembleLine (config 3 4 8) "RDREG INC6".toList = some (.c, .rdreg 0x0E) := by decide

theorem test_assemble_pseudo :
    assembleLine (config 3 4 8) "SETHZ 440".toList = some (.c, .setfreq 0x01B80000) ∧
      assembleLine (config 3 4 8) "MUTE".toList = some (.c, .setgains 0 0 0 0 0 0 0 0) := by decide

/-! ### Witnesses: the hypotheses of each statement, met together -/

/-- T1 playing, port A holding a NEXT and port C the first word of a SETWT, with a move to make. -/
def running (m : Move) : State :=
  { playing with pendA := [0x1#32], pendC := [0x10#32], respA := [5#32], moves := [m] }

/-- Port A halted by the word 0x11 (P5). -/
def haltedA (m : Move) : State :=
  { playing with status := 0x208#32, fhdrA := 0x11#32, moves := [m] }

theorem witness_ResetEventRestoresInstance :
    (running (.reset stackT1)).cfg.wellFormed = true ∧
      (running (.reset stackT1)).moves = .reset stackT1 :: [] := by decide

theorem witness_EveryStepKeepsInvariant :
    (running (.serve .a)).Inv ∧ ∃ t, step (running (.serve .a)) = .next t := by
  refine ⟨⟨by unfold State.OctaveStack; decide, by decide, fun p hp => (by cases hp), by decide,
    by decide, by decide, fun p => ⟨?_, ?_⟩⟩, _, rfl⟩
  · intro _; cases p <;> decide
  · intro h; cases p <;> exact absurd h (by decide)

/-- The invariant's clause on a halted port is met too. -/
theorem witness_EveryStepKeepsInvariant_halted : (haltedA (.serve .a)).FaultRecordOf .a :=
  ⟨fun h => absurd h (by decide), fun _ => ⟨rfl, .wrongPort, by decide, by decide⟩⟩

theorem witness_OctaveStackOnEveryRun :
    ∃ t, Sys2Proof.core.run 1 ((running (.serve .a)).resetInstance stackT1) = .next t := ⟨_, rfl⟩

theorem witness_SampleCommandsTouchNoSetting :
    Instr.next.opcode.port = .a ∧ Instr.peek.opcode.port = .a ∧
      (Instr.phmod 1).opcode.port = .a := by decide

theorem witness_WholeCyclePhmodIsNext : (zeroed 16 4 8).cfg.wellFormed = true := by decide

theorem witness_AdvanceLaw :
    ∀ i ∈ [Instr.next, .peek, .phmod 7, .rdreg 1, .setgains 1 1 1 1 1 1 1 1, .setwt 0 0 0 0],
      i.setsFrequency = false := by decide

theorem witness_PeekAfterNextRepeats : playing.ReadsBacked playing.advance.phase 0#32 := by
  unfold State.ReadsBacked; decide

theorem witness_PeekIsIdempotent : playing.ReadsBacked playing.phase 0#32 ∧
    ∀ i ∈ [Instr.setfreq 0], i = .peek ∨ i.setsFrequency = true ∨ ∃ reg, i = .rdreg reg :=
  ⟨by unfold State.ReadsBacked; decide, fun i hi => .inr (.inl (by simp_all; rfl))⟩

theorem witness_ZeroGainsRespondZero :
    ∀ j : Fin 7, installed.gain1[j] = 0#8 ∧ installed.gain2[j] = 0#8 := by decide

theorem witness_AccumulatorNeverOverflows :
    ([13, 12, 11, 10, 9, 8, 7, 6, 5, 4, 3, 2, 1, 0] : List (Fin 14)).Perm (List.finRange 14) ∧
      ([13, 0, 7] : List (Fin 14)).Nodup := by decide

theorem witness_ContractSampleRange : playing.GainsWithinContract := by
  unfold State.GainsWithinContract; decide

theorem witness_IndexIsCellPositionBits :
    (config 0 4 8).log2Cells = 0 ∧
      ∀ b, 16 ≤ b → b < 16 + (config 3 4 8).log2Cells →
        (0x00080000#32).getLsbD b = (0x0000FFFF#32).getLsbD b := by
  refine ⟨rfl, fun b h1 h2 => ?_⟩
  have h3 : b < 19 := h2
  interval_cases b <;> decide

/-- Its samples clause: phases that differ in the fraction and above the mask only. -/
theorem witness_IndexIsCellPositionBits_sample :
    ∀ (i : Fin 7) (b : Nat), 16 ≤ b → b < 16 + playing.cfg.log2Cells →
      ((Vector.replicate 7 0x0008FFFF#32)[i] + 0#32).getLsbD b =
        ((Vector.replicate 7 0#32)[i] + 0#32).getLsbD b := by
  intro i b h1 h2
  have h3 : b < 19 := h2
  simp only [Vector.getElem_replicate, Fin.getElem_fin]
  interval_cases b <;> decide

/-- A memory that differs from T1's at an unreferenced cell. -/
theorem witness_SamplesReadOnlyReferencedCells :
    ∀ a, (isReferencedBy playing.cfg playing.wave1 a = true ∨
        isReferencedBy playing.cfg playing.bass1 a = true ∨
        isReferencedBy playing.cfg playing.wave2 a = true ∨
        isReferencedBy playing.cfg playing.bass2 a = true) →
      Memory.read (Memory.write playing.tmem 0x28 5) a = Memory.read playing.tmem a := by
  intro a h
  by_cases ha : a = 0x28
  · subst ha; exact absurd h (by decide)
  · simp [Memory.read, Memory.write, playing, installed, zeroed, tablesT1, blankCell, ha]

theorem witness_TableReadGivesCellOrDraw :
    isMapped playing.cfg 255 = true ∧ isMapped playing.cfg 256 = false := by decide

theorem witness_CellAddressWraps : (0xFE#32).toNat + 2 = 2 ^ (config 3 4 8).addrBits := by decide

/-- An allowed write, to the first cell above the last referenced region. -/
theorem witness_HostWriteMove_allowed :
    let s := running (.tableWrite 0x20 5)
    s.cfg.wellFormed = true ∧ s.moves = .tableWrite 0x20 5 :: [] ∧
      s.tmem.Pairwise (fun x y => x.1 < y.1) ∧ isMapped s.cfg 0x20 = true ∧
      ∀ p ∈ [s.wave1, s.bass1, s.wave2, s.bass2] ++ s.otherPointers,
        ∀ j, j < 2 ^ s.cfg.log2Cells → (p.toNat + j) % 2 ^ s.cfg.addrBits ≠ 0x20 := by
  refine ⟨by decide, rfl, by decide, by decide, ?_⟩
  intro p hp j hj
  have h8 : j < 8 := hj
  simp [running, playing, installed, zeroed, State.reset] at hp
  rcases hp with rfl | rfl | rfl | rfl <;> simp [running, playing, installed, zeroed, config] <;>
    omega

/-- The other clauses: the last referenced cell, a cell past the backed run, an address past the
space. -/
theorem witness_HostWriteMove_stops :
    (∃ p ∈ [playing.wave1, playing.bass1, playing.wave2, playing.bass2] ++ playing.otherPointers,
      ∃ j, j < 2 ^ playing.cfg.log2Cells ∧ (p.toNat + j) % 2 ^ playing.cfg.addrBits = 0x1F) ∧
    isMapped playing.cfg 0x1F = true ∧
    (255 < 2 ^ playing.cfg.addrBits ∧
      isMapped { playing.cfg with mapped := [⟨0, 255⟩] } 255 = false) ∧
    2 ^ playing.cfg.addrBits ≤ 256 :=
  ⟨⟨0x18#32, by simp [playing, installed, zeroed], 7, by decide, by decide⟩, by decide,
    ⟨by decide, by decide⟩, by decide⟩

theorem witness_AllowedHostWriteIsInaudible :
    ∃ u, playing.hostWrite 0x20 5 = .next u := ⟨_, rfl⟩

theorem witness_OnlyHostWritesChangeTableMemory :
    (∃ t, step (running (.serve .a)) = .next t) ∧
      ∀ a v, (running (.serve .a)).nextMove ≠ .tableWrite a v :=
  ⟨⟨_, rfl⟩, fun _ _ h => by cases h⟩

theorem witness_SetwtInstallsPointers : (zeroed 3 4 32).cfg.wellFormed = true := by decide

theorem witness_IncrementIsExactRatio :
    (config 4 4 8).log2Rate ≤ (config 4 4 8).log2Cells ∧
      (config 3 4 8).log2Cells < (config 3 4 8).log2Rate := by decide

theorem witness_ContractGainsNeverWrap : (1023#16).toNat ≤ 1023 ∧ (64#16).toNat ≤ 64 := by decide

theorem witness_ContractGainBudget :
    (Instr.setgains 1023 0 1023 0 1023 0 1023 64).WithinContract := by
  unfold Instr.WithinContract; decide

/-- GainContractOnEveryRun: a delivered SETGAINS 1023, 0, 1023, 0, 1023, 0, 1023, 64, then its service. -/
theorem witness_GainContractOnEveryRun :
    let s := { zeroed 3 4 8 with
      moves := [.deliver .c 0x14, .deliver .c 0x3FF, .deliver .c 0x3FF, .deliver .c 0x3FF,
        .deliver .c 0x4003FF, .serve .c] }.resetInstance stackT1
    (∀ m u, m < 6 → Sys2Proof.core.run m s = .next u → u.ServesContract) ∧
      ∃ t, Sys2Proof.core.run 6 s = .next t ∧ t.gain2[6] = 35#8 := by
  refine ⟨fun m u hm h => ?_, _, rfl, by decide⟩
  interval_cases m <;> cases h <;> intro p i rest hp hd <;> cases hp
  cases hd
  unfold Instr.WithinContract
  decide

theorem witness_SettersLeavePhasesAndStreams :
    (Instr.setnote 1).opcode.port = .c ∧ ∀ reg, Instr.setnote 1 ≠ .rdreg reg :=
  ⟨rfl, (fun _ h => by cases h)⟩

theorem witness_PendingWordsAreNeverLost :
    (∃ t, step (running (.serve .a)) = .next t) ∧
      (∀ seeds, (running (.serve .a)).nextMove ≠ .reset seeds) ∧
      (running (.serve .a)).nextMove ≠ .serve .c :=
  ⟨⟨_, rfl⟩, (fun _ h => by cases h), (fun h => by cases h)⟩

theorem witness_ResponsesAppendInOrder :
    (∃ t, step (running (.serve .a)) = .next t) ∧
      (∀ seeds, (running (.serve .a)).nextMove ≠ .reset seeds) ∧
      (running (.serve .a)).nextMove ≠ .consume .a :=
  ⟨⟨_, rfl⟩, (fun _ h => by cases h), (fun h => by cases h)⟩

/-- SettersAreNeverTorn, its second case: a step that performs a SETFREQ. -/
theorem witness_SettersAreNeverTorn :
    let s := { running (.serve .c) with pendC := [0x11#32, 0x20000#32] }
    (∃ t, step s = .next t) ∧ (∀ seeds, s.nextMove ≠ .reset seeds) ∧
      decode .c s.pendC = .command (.setfreq 0x20000) [] :=
  ⟨⟨_, rfl⟩, (fun _ h => by cases h), by decide⟩

/-- PhasesChangeOnlyByAdvance: a step that changes a phase. -/
theorem witness_PhasesChangeOnlyByAdvance :
    (∃ t, step (running (.serve .a)) = .next t ∧ t.phase ≠ (running (.serve .a)).phase) ∧
      ∀ seeds, (running (.serve .a)).nextMove ≠ .reset seeds :=
  ⟨⟨_, rfl, by decide⟩, (fun _ h => by cases h)⟩

theorem witness_StatusBitsAreSticky :
    (∃ t, step (haltedA (.serve .a)) = .next t) ∧
      (∀ seeds, (haltedA (.serve .a)).nextMove ≠ .reset seeds) ∧
      (haltedA (.serve .a)).status.getLsbD 3 = true :=
  ⟨⟨_, rfl⟩, (fun _ h => by cases h), by decide⟩

/-- RdregReadsRegister, at both ends of each run of numbers. -/
theorem witness_RdregReadsRegister :
    (0x00#16).toNat = 0x00 + (0 : Fin 7).val ∧ (0x06#16).toNat = 0x00 + (6 : Fin 7).val ∧
      (0x08#16).toNat = 0x08 + (0 : Fin 7).val ∧ (0x0E#16).toNat = 0x08 + (6 : Fin 7).val ∧
      (0x10#16).toNat = 0x10 + (0 : Fin 7).val ∧ (0x16#16).toNat = 0x10 + (6 : Fin 7).val ∧
      (0x18#16).toNat = 0x18 + (0 : Fin 7).val ∧ (0x1E#16).toNat = 0x18 + (6 : Fin 7).val := by
  decide

theorem witness_ReservedRegistersReadZero :
    (0x07#16).toNat = 0x07 ∧ (0x0F#16).toNat = 0x0F ∧ (0x17#16).toNat = 0x17 ∧
      (0x1F#16).toNat = 0x1F ∧ 0x24 ≤ (0x24#16).toNat ∧ (0x2F#16).toNat ≤ 0x2F ∧
      0x34 ≤ (0x34#16).toNat ∧ 0x34 ≤ (0xFFFF#16).toNat := by decide

theorem witness_ConfigIsHardwired : (config 16 31 32).wellFormed = true ∧
    ∃ t, step (running (.consume .a)) = .next t := ⟨by decide, _, rfl⟩

theorem witness_DecodeOfEncode : Port.c ≠ Instr.next.opcode.port := by decide

theorem witness_EncodeOfDecode :
    decode .c [0x11#32, 0x20000#32, 0x12#32] = .command (.setfreq 0x20000) [0x12#32] := by decide

theorem witness_HeaderIllegalExactly :
    let s := { running (.serve .a) with pendA := [0x11#32, 0x1#32] }
    s.halted .a = false ∧ s.pend .a = 0x11#32 :: [0x1#32] ∧
      decode .a [0x11#32, 0x1#32] = .illegal .wrongPort 0x11#32 := by decide

theorem witness_PseudoInstructionsExpand : 65535 ≤ 65535 ∧ 65535 < 65536 := by decide

theorem witness_StepRunsDecodedCommand :
    (running (.serve .a)).cfg.wellFormed = true ∧
      (running (.serve .a)).nextMove = .serve .a ∧ (running (.serve .a)).halted .a = false ∧
      decode .a ((running (.serve .a)).pend .a) = .command .next [] := by decide

theorem witness_DeliveryJoinsPacket :
    (running (.deliver .c 7)).cfg.wellFormed = true ∧
      (running (.deliver .a 7)).moves = .deliver .a 7 :: [] ∧
      (running (.deliver .a 7)).halted .a = false ∧
      (running (.deliver .c 7)).moves = .deliver .c 7 :: [] ∧
      (running (.deliver .c 7)).halted .c = false := by decide

/-- A SETWT one word short. -/
theorem witness_IncompletePacketWaits :
    let s := { running (.serve .c) with pendC := [0x10#32, 1#32, 2#32, 3#32] }
    s.cfg.wellFormed = true ∧ s.moves = .serve .c :: [] ∧ s.pend .c = 0x10#32 :: [1, 2, 3] ∧
      headerCause .c 0x10#32 = none ∧ Opcode.ofCode? (headerOpc 0x10#32) = some .setwt ∧
      [1#32, 2#32, 3#32].length < Opcode.setwt.operandWords := by decide

theorem witness_IllegalCommandIsRecorded :
    let s := { running (.serve .a) with pendA := [0x00010001#32, 0x1#32] }
    s.cfg.wellFormed = true ∧ s.moves = .serve .a :: [] ∧ s.halted .a = false ∧
      s.pend .a = 0x00010001#32 :: [0x1#32] ∧
      headerCause .a 0x00010001#32 = some .badField := by decide

theorem witness_IllegalCommandIsRecorded_portC :
    let s := { running (.serve .c) with pendC := [0x00000001#32] }
    s.cfg.wellFormed = true ∧ s.moves = .serve .c :: [] ∧ s.halted .c = false ∧
      s.pend .c = 0x00000001#32 :: [] ∧
      headerCause .c 0x00000001#32 = some .wrongPort := by decide

theorem witness_HaltedPortIsStuckUntilReset :
    (haltedA (.serve .a)).halted .a = true ∧ (haltedA (.serve .a)).cfg.wellFormed = true ∧
      (haltedA (.serve .a)).moves = .serve .a :: [] ∧
      (haltedA (.deliver .a 1)).moves = .deliver .a 1 :: [] ∧
      ∃ t, step (haltedA (.serve .c)) = .next t :=
  ⟨by decide, by decide, rfl, rfl, _, rfl⟩

theorem witness_ConsumeTakesOldest :
    (running (.consume .a)).cfg.wellFormed = true ∧
      (running (.consume .a)).moves = .consume .a :: [] ∧
      (running (.consume .a)).respA = 5#32 :: [] ∧
      { running (.consume .c) with respC := [6#32, 7#32] }.respC = 6#32 :: [7#32] := by decide

/-- Port A ready; only port C ready; neither. -/
theorem witness_IdleMachineServesOrStands :
    let s := { running (.serve .a) with moves := [] }
    s.cfg.wellFormed = true ∧ s.moves = [] ∧ s.ready .a = true ∧
      { s with pendA := [], pendC := [0x00300020#32] }.ready .a = false ∧
      { s with pendA := [], pendC := [0x00300020#32] }.ready .c = true ∧
      { s with pendA := [] }.ready .a = false ∧ { s with pendA := [] }.ready .c = false := by
  decide

theorem witness_IllFormedConfigIsRefused :
    step (zeroed 17 4 8) = .refused .illFormedConfig := by rfl

end Sys2Proof.Tests
end

section
/-! PROOFS. The scope statement (00_scope.md, R18): a step is refused for its configuration where the
configuration is ill-formed, and, since no move raises that refusal, nowhere else. -/

namespace Sys2Proof

theorem Config.wellFormed_iff (c : Config) : c.wellFormed = true ↔
    c.log2Cells ≤ 16 ∧ c.log2Rate ≤ 31 ∧ 1 ≤ c.addrBits ∧ c.addrBits ≤ 32 := by
  simp [Config.wellFormed, and_assoc]

end Sys2Proof

namespace Sys2Proof.Machine

theorem step_of_wellFormed {s : State} (h : s.cfg.wellFormed = true) :
    step s = s.dropMove.perform s.nextMove := by
  simp [step, State.stepOnce, h]

theorem step_of_illFormed {s : State} (h : s.cfg.wellFormed = false) :
    step s = .refused .illFormedConfig := by
  simp [step, State.stepOnce, h]

/-- Every command completes: no arm faults or is refused. -/
theorem exec_completes (i : Instr) (s : State) : ∃ t, exec i s = .next t := by
  cases i <;> exact ⟨_, rfl⟩

theorem State.servePort_completes (s : State) (p : Port) : ∃ t, s.servePort p = .next t := by
  unfold State.servePort
  split
  · exact ⟨_, rfl⟩
  · split
    · exact ⟨_, rfl⟩
    · exact ⟨_, rfl⟩
    · exact exec_completes _ _

/-- The stops of a host write are its own (R70, R81). -/
theorem State.hostWrite_ne_illFormed (s : State) (addr : Nat) (v : Byte) :
    s.hostWrite addr v ≠ .refused .illFormedConfig := by
  unfold State.hostWrite
  split_ifs <;> simp

theorem State.perform_ne_illFormed (s : State) (m : Move) :
    s.perform m ≠ .refused .illFormedConfig := by
  cases m with
  | serve p =>
    obtain ⟨t, ht⟩ := s.servePort_completes p
    simp [State.perform, ht]
  | tableWrite addr v => exact s.hostWrite_ne_illFormed addr v
  | deliver | consume | reset | otherInstances => simp [State.perform]

theorem step_eq_illFormed_iff (s : State) :
    step s = .refused .illFormedConfig ↔ ¬ s.cfg.wellFormed = true := by
  constructor
  · intro h hw
    rw [step_of_wellFormed hw] at h
    exact State.perform_ne_illFormed _ _ h
  · intro hw
    exact step_of_illFormed (Bool.eq_false_of_not_eq_true hw)

/-- Settles O60: only the check of the configuration, and no move, raises this refusal. -/
theorem illFormedConfigIsRefused : Obligations.IllFormedConfigIsRefused := by
  intro s
  rw [step_eq_illFormed_iff, Config.wellFormed_iff]

end Sys2Proof.Machine
end

section
/-! PROOFS. What one step can do, as a case list with names, and what a step writes of each piece of
the state: the layer the statements of 10_state.md (and others over all steps) are settled from. -/

namespace Sys2Proof.Machine

/-- The outcomes of a step (R85, R104, R252, R253, R280), the service of a port split by what the
port holds. -/
inductive StepEffect (s : State) : State → Prop where
  | deliver (p : Port) (w : Word) (hm : s.nextMove = .deliver p w) :
      StepEffect s (s.dropMove.deliver p w)
  | stand (p : Port) (hm : s.nextMove = .serve p)
      (hd : s.halted p = true ∨ decode p (s.pend p) = .waiting) : StepEffect s s.dropMove
  | fault (p : Port) (cause : Cause) (hdr : Word) (hm : s.nextMove = .serve p)
      (hrun : s.halted p = false) (hd : decode p (s.pend p) = .illegal cause hdr) :
      StepEffect s (s.dropMove.illegalCommand p cause hdr)
  | command (p : Port) (i : Instr) (rest : List Word) (t : State) (hm : s.nextMove = .serve p)
      (hrun : s.halted p = false) (hd : decode p (s.pend p) = .command i rest)
      (he : exec i (s.dropMove.setPend p rest) = .next t) : StepEffect s t
  | tableWrite (addr : Nat) (v : Byte) (hm : s.nextMove = .tableWrite addr v)
      (hlt : addr < s.cfg.space) (hmap : isMapped s.cfg addr = true)
      (href : s.isReferenced addr = false) :
      StepEffect s { s.dropMove with tmem := Memory.write s.tmem addr v }
  | consume (p : Port) (hm : s.nextMove = .consume p) : StepEffect s (s.dropMove.consume p)
  | reset (seeds : Lanes Word) (hm : s.nextMove = .reset seeds) :
      StepEffect s (s.dropMove.resetInstance seeds)
  | otherInstances (ps : List Word) (hm : s.nextMove = .otherInstances ps) :
      StepEffect s (s.dropMove.setOtherPointers ps)

theorem step_effect {s t : State} (h : step s = .next t) : StepEffect s t := by
  obtain ⟨-, h⟩ := step_cases h
  obtain ⟨p, w, hm, rfl⟩ | ⟨p, hm, hs⟩ | ⟨addr, v, hm, hw⟩ | ⟨p, hm, rfl⟩ | ⟨seeds, hm, rfl⟩ |
    ⟨ps, hm, rfl⟩ := h
  · exact .deliver p w hm
  · obtain ⟨hhalt, rfl⟩ | ⟨-, hd, rfl⟩ | ⟨cause, hdr, hrun, hd, rfl⟩ | ⟨i, rest, hrun, hd, he⟩ :=
      State.servePort_cases hs
    · exact .stand p hm (.inl hhalt)
    · exact .stand p hm (.inr (by simpa using hd))
    · exact .fault p cause hdr hm hrun (by simpa using hd)
    · exact .command p i rest t hm hrun (by simpa using hd) he
  · obtain ⟨hlt, hmap, href, rfl⟩ := State.hostWrite_next hw
    exact .tableWrite addr v hm hlt hmap href
  · exact .consume p hm
  · exact .reset seeds hm
  · exact .otherInstances ps hm

/-- A step with a move pending, in a well-formed configuration. -/
theorem step_of_moves {s : State} {m : Move} {ms : List Move} (hw : s.cfg.wellFormed = true)
    (hm : s.moves = m :: ms) : step s = { s with moves := ms }.perform m := by
  simp [step_of_wellFormed hw, State.nextMove, State.dropMove, hm]

/-! ### What a command writes -/

/-- R150, R152: only NEXT and PHMOD write the phases. -/
theorem exec_phase {i : Instr} {s t : State} (h : exec i s = .next t) :
    i.advances = true ∨ t.phase = s.phase := by
  cases i <;> cases h <;> simp [Instr.advances]

/-- R187: the increments are written as a whole octave stack or not at all. -/
theorem exec_inc {i : Instr} {s t : State} (h : exec i s = .next t) :
    t.inc = s.inc ∨ ∃ v, t.inc = octaveStack v := by
  cases i <;> cases h <;> simp

/-- R201: only SETGAINS writes the gains. -/
theorem exec_gains {i : Instr} {s t : State} (h : exec i s = .next t) :
    (t.gain1 = s.gain1 ∧ t.gain2 = s.gain2) ∨
    ∃ g0 g1 g2 g3 g4 g5 g6 mix, i = .setgains g0 g1 g2 g3 g4 g5 g6 mix ∧
      t.gain1 = gainStack #v[g0, g1, g2, g3, g4, g5, g6] (scaleOne mix) ∧
      t.gain2 = gainStack #v[g0, g1, g2, g3, g4, g5, g6] (scaleTwo mix) := by
  cases i with
  | setgains g0 g1 g2 g3 g4 g5 g6 mix =>
    cases h
    exact .inr ⟨g0, g1, g2, g3, g4, g5, g6, mix, rfl, rfl, rfl⟩
  | _ => cases h; exact .inl (by simp)

/-- R183: the pointers are written as A-bit values or not at all. -/
theorem exec_pointers {i : Instr} {s t : State} (h : exec i s = .next t) :
    t.pointers = s.pointers ∨ ∃ ws, t.pointers = List.map (pointerOperand s.cfg) ws := by
  cases i with
  | setwt w1 b1 w2 b2 => cases h; exact .inr ⟨[w1, b1, w2, b2], rfl⟩
  | _ => cases h; exact .inl (by simp [State.pointers])

/-- R183, R187, R200: a command only adds bits to STATUS. -/
theorem exec_status {i : Instr} {s t : State} (h : exec i s = .next t) :
    ∃ m, t.status = s.status ||| m := by
  cases i with
  | setwt | setfreq | setnote | setnotesh | setgains => cases h; exact ⟨_, rfl⟩
  | next | peek | phmod | rdreg => cases h; exact ⟨0#32, by simp⟩

/-! ### What a step writes -/

/-- The registers that only a command or a reset writes are the same in two states. -/
structure State.SameSettings (s t : State) : Prop where
  phase : t.phase = s.phase
  inc : t.inc = s.inc
  gain1 : t.gain1 = s.gain1
  gain2 : t.gain2 = s.gain2
  pointers : t.pointers = s.pointers

/-- Phases, increments, gains and pointers change only by a command performed or a reset (R36, R39,
R43, R47). -/
theorem step_settings {s t : State} (h : step s = .next t) :
    (∃ p i rest, s.nextMove = .serve p ∧ s.halted p = false ∧
      decode p (s.pend p) = .command i rest ∧ exec i (s.dropMove.setPend p rest) = .next t) ∨
    (∃ seeds, s.nextMove = .reset seeds ∧ t = s.dropMove.resetInstance seeds) ∨
    s.SameSettings t := by
  cases step_effect h with
  | command p i rest _ hm hrun hd he => exact .inl ⟨p, i, rest, hm, hrun, hd, he⟩
  | reset seeds hm => exact .inr (.inl ⟨seeds, hm, rfl⟩)
  | deliver | stand | fault | tableWrite | consume | otherInstances =>
    exact .inr (.inr (by constructor <;> simp [State.pointers]))

/-- R12 to R16: no step changes the parameters. -/
theorem step_cfg {s t : State} (h : step s = .next t) : t.cfg = s.cfg := by
  cases step_effect h with
  | command _ _ _ _ _ _ _ he => simp [exec_untouched he]
  | deliver | stand | fault | tableWrite | consume | reset | otherInstances => simp

/-- R71: table memory stays, or a host write of a cell inside the address space was made. -/
theorem step_tmem {s t : State} (h : step s = .next t) :
    t.tmem = s.tmem ∨ ∃ addr v, s.nextMove = .tableWrite addr v ∧ addr < s.cfg.space ∧
      t.tmem = Memory.write s.tmem addr v := by
  cases step_effect h with
  | command _ _ _ _ _ _ _ he => simp [exec_untouched he]
  | tableWrite addr v hm hlt => exact .inr ⟨addr, v, hm, hlt, rfl⟩
  | deliver | stand | fault | consume | reset | otherInstances => simp

/-- The other pointers stay, or are replaced by A-bit values (R45, R94). -/
theorem step_otherPointers {s t : State} (h : step s = .next t) :
    t.otherPointers = s.otherPointers ∨
      ∃ ps, t.otherPointers = List.map (pointerOperand s.cfg) ps := by
  cases step_effect h with
  | command _ _ _ _ _ _ _ he => simp [exec_untouched he]
  | otherInstances ps => exact .inr ⟨ps, rfl⟩
  | deliver | stand | fault | tableWrite | consume | reset => simp

/-- R49: STATUS gains bits, or a fault is recorded, or a reset clears it. -/
theorem step_status {s t : State} (h : step s = .next t) :
    (∃ m, t.status = s.status ||| m) ∨ (∃ p cause, t.status = withFault p cause s.status) ∨
      ∃ seeds, s.nextMove = .reset seeds ∧ t.status = 0#32 := by
  cases step_effect h with
  | command _ _ _ _ _ _ _ he => exact .inl (by simpa using exec_status he)
  | fault p cause => exact .inr (.inl ⟨p, cause, by simp⟩)
  | reset seeds hm => exact .inr (.inr ⟨seeds, hm, rfl⟩)
  | deliver | stand | tableWrite | consume | otherInstances => exact .inl ⟨0#32, by simp⟩

end Sys2Proof.Machine
end

section
/-! PROOFS. The invariant of the model at reset and over every step (R38, R45, R49, R70, R252 to
R256), part by part, and the octave stack on every run. -/

namespace Sys2Proof.Machine

/-! ### The octave stack (R38) -/

theorem State.OctaveStack.of_inc {s t : State} (h : t.inc = s.inc) (hs : s.OctaveStack) :
    t.OctaveStack := by
  unfold State.OctaveStack; rw [h]; exact hs

theorem State.OctaveStack.of_stack {t : State} {v : Word} (h : t.inc = octaveStack v) :
    t.OctaveStack := by
  intro i
  simp [h, octaveStack]

theorem resetInstance_octaveStack (s : State) (seeds : Lanes Word) :
    (s.resetInstance seeds).OctaveStack := by
  intro i
  simp

theorem step_keepsOctaveStack {s t : State} (hs : s.OctaveStack) (h : step s = .next t) :
    t.OctaveStack := by
  obtain ⟨p, i, rest, -, -, -, he⟩ | ⟨seeds, -, rfl⟩ | hsame := step_settings h
  · obtain hinc | ⟨v, hinc⟩ := exec_inc he
    · exact hs.of_inc (by simpa using hinc)
    · exact .of_stack hinc
  · exact resetInstance_octaveStack _ _
  · exact hs.of_inc hsame.inc

/-! ### Pointers and table memory (R45, R70) -/

/-- The bound of the own pointers, over their list. -/
theorem State.forall_pointers_lt (s : State) (n : Nat) :
    (∀ p ∈ s.pointers, p.toNat < n) ↔
      s.wave1.toNat < n ∧ s.bass1.toNat < n ∧ s.wave2.toNat < n ∧ s.bass2.toNat < n := by
  simp [State.pointers]

theorem map_pointerOperand_lt (c : Config) (ws : List Word) :
    ∀ p ∈ List.map (pointerOperand c) ws, p.toNat < c.space := by
  simp [pointerOperand_lt]

theorem step_keepsOwnPointers {s t : State} (hs : ∀ p ∈ s.pointers, p.toNat < s.cfg.space)
    (h : step s = .next t) : ∀ p ∈ t.pointers, p.toNat < s.cfg.space := by
  obtain ⟨p, i, rest, -, -, -, he⟩ | ⟨seeds, -, rfl⟩ | hsame := step_settings h
  · obtain hp | ⟨ws, hp⟩ := exec_pointers he
    · rw [hp]; simpa [State.pointers] using hs
    · rw [hp]; simpa using map_pointerOperand_lt s.cfg ws
  · simp [State.pointers, Config.space_pos]
  · rwa [hsame.pointers]

theorem step_keepsOtherPointers {s t : State}
    (hs : ∀ p ∈ s.otherPointers, p.toNat < s.cfg.space) (h : step s = .next t) :
    ∀ p ∈ t.otherPointers, p.toNat < s.cfg.space := by
  obtain hp | ⟨ps, hp⟩ := step_otherPointers h
  · rwa [hp]
  · rw [hp]; exact map_pointerOperand_lt s.cfg ps

theorem step_keepsTableForm {s t : State} (hs : Memory.wf s.tmem) (h : step s = .next t) :
    Memory.wf t.tmem := by
  obtain hm | ⟨addr, v, -, -, hm⟩ := step_tmem h
  · rwa [hm]
  · rw [hm]; exact Memory.write_wf addr v hs

theorem step_keepsTableBounds {s t : State} (hs : ∀ x ∈ s.tmem, x.1 < s.cfg.space)
    (h : step s = .next t) : ∀ x ∈ t.tmem, x.1 < s.cfg.space := by
  obtain hm | ⟨addr, v, -, hlt, hm⟩ := step_tmem h
  · rwa [hm]
  · intro x hx
    rw [hm] at hx
    obtain ⟨rfl, -⟩ | hx := Memory.mem_write hx
    · exact hlt
    · exact hs x hx

/-! ### STATUS and the fault records (R49, R252 to R256) -/

theorem State.pend_congr {s t : State} (ha : t.pendA = s.pendA) (hc : t.pendC = s.pendC)
    (p : Port) : t.pend p = s.pend p := by cases p <;> assumption

theorem State.fhdr_congr {s t : State} (ha : t.fhdrA = s.fhdrA) (hc : t.fhdrC = s.fhdrC)
    (p : Port) : t.fhdr p = s.fhdr p := by cases p <;> assumption

/-- R253: a word delivered to a halted port is discarded. -/
theorem State.deliver_pend_of_halted {s : State} {p : Port} (hp : s.halted p = true) (q : Port)
    (w : Word) : (s.deliver q w).pend p = s.pend p := by
  cases p <;> simp [State.pend, hp]

/-- A fault record is kept where its fields and, on a halted port, the packet buffer are. -/
theorem State.FaultRecordOf.of_kept {s t : State} {p : Port} (hs : s.FaultRecordOf p)
    (hb : t.halted p = s.halted p)
    (hc : causeField p t.status = causeField p s.status) (hf : t.fhdr p = s.fhdr p)
    (hp : s.halted p = true → t.pend p = s.pend p) : t.FaultRecordOf p where
  running h := by
    rw [hc, hf]
    exact hs.running (hb ▸ h)
  stopped h := by
    rw [hb] at h
    rw [hc, hf, hp h]
    exact hs.stopped h

theorem State.FaultRecordOf.dropMove {s : State} {p : Port} (hs : s.FaultRecordOf p) :
    s.dropMove.FaultRecordOf p :=
  hs.of_kept rfl rfl rfl fun _ => s.dropMove_pend p

/-- A port that never faulted since reset has an empty record. -/
theorem State.FaultRecordOf.of_zero {t : State} {p : Port} (hst : t.status = 0#32)
    (hf : t.fhdr p = 0#32) : t.FaultRecordOf p where
  running _ := ⟨by simp [causeField, hst], hf⟩
  stopped h := by simp [State.halted, faultBit, hst] at h

/-- R252: the illegal-command fault leaves the record of its own port. -/
theorem illegalCommand_faultRecord {s : State} {p : Port} {ws : List Word} {cause : Cause}
    {hdr : Word} (hd : decode p ws = .illegal cause hdr) :
    (s.illegalCommand p cause hdr).FaultRecordOf p where
  running h := by simp [State.halted] at h
  stopped _ := by
    refine ⟨by cases p <;> rfl, cause, ?_, by simp⟩
    obtain ⟨hc, -⟩ := decode_illegal_inv hd
    cases p <;> exact hc

/-- R256: the fault of one port leaves the record of the other. -/
theorem illegalCommand_keepsOther {s : State} {p q : Port} (hs : s.FaultRecordOf q) (hne : q ≠ p)
    (cause : Cause) (hdr : Word) : (s.illegalCommand p cause hdr).FaultRecordOf q := by
  refine hs.of_kept ?_ ?_ ?_ fun _ => ?_
  · simpa [State.halted] using faultBit_withFault_other hne cause s.status
  · simpa using causeField_withFault_other hne cause s.status
  · cases q <;> simp [State.fhdr, hne.symm]
  · cases q <;> simp [State.pend, hne.symm]

theorem step_keepsFaultRecord {s t : State} {q : Port} (hs : s.FaultRecordOf q)
    (h : step s = .next t) : t.FaultRecordOf q := by
  have hs' := hs.dropMove
  cases step_effect h with
  | command p i rest _ _ hrun _ he =>
    obtain ⟨-, hfa, hfc, hpa, hpc, -⟩ := exec_untouched he
    obtain ⟨hb, hc, -⟩ := exec_keepsFaultFields he q
    refine hs'.of_kept (by simpa [State.halted] using hb) (by simpa using hc)
      (State.fhdr_congr (by simpa using hfa) (by simpa using hfc) q) fun hq => ?_
    have hne : q ≠ p := by rintro rfl; simp [hrun] at hq
    rw [State.pend_congr hpa hpc, State.setPend_pend_other _ _ hne]
  | fault p cause hdr _ _ hd =>
    by_cases hqp : q = p
    · subst hqp; exact illegalCommand_faultRecord hd
    · exact illegalCommand_keepsOther hs' hqp cause hdr
  | deliver p w =>
    exact hs'.of_kept (State.halted_eq_of_status (by simp) q) (by simp)
      (State.fhdr_congr (by simp) (by simp) q) fun hq => State.deliver_pend_of_halted hq p w
  | reset seeds => exact .of_zero rfl (by cases q <;> rfl)
  | stand => exact hs'
  | tableWrite | consume | otherInstances =>
    exact hs'.of_kept (State.halted_eq_of_status (by simp) q) (by simp)
      (State.fhdr_congr (by simp) (by simp) q) fun _ => State.pend_congr (by simp) (by simp) q

theorem step_keepsReserved {s t : State} (hs : s.status &&& reservedMask = 0#32)
    (h : step s = .next t) : t.status &&& reservedMask = 0#32 := by
  cases step_effect h with
  | command _ _ _ _ _ _ _ he =>
    obtain ⟨-, -, hr⟩ := exec_keepsFaultFields he .a
    rw [hr]; simpa using hs
  | fault p cause => simpa [reserved_withFault] using hs
  | reset => simp
  | deliver | stand | tableWrite | consume | otherInstances => simpa using hs

/-! ### The invariant -/

/-- Settles O4, part by part. -/
theorem everyStepKeepsInvariant : Obligations.EveryStepKeepsInvariant := by
  intro s t hs h
  have hcfg := step_cfg h
  exact
    { octaves := step_keepsOctaveStack hs.octaves h
      ownPointers := by
        rw [hcfg, ← State.forall_pointers_lt]
        exact step_keepsOwnPointers ((s.forall_pointers_lt _).mpr hs.ownPointers) h
      otherPointers := by rw [hcfg]; exact step_keepsOtherPointers hs.otherPointers h
      tableForm := step_keepsTableForm hs.tableForm h
      tableBounds := by rw [hcfg]; exact step_keepsTableBounds hs.tableBounds h
      reservedBits := step_keepsReserved hs.reservedBits h
      records := fun p => step_keepsFaultRecord (hs.records p) h }

/-- R281: a reset meets the invariant where table memory and the other pointers do. -/
theorem resetInstance_inv {s : State} (seeds : Lanes Word)
    (hother : ∀ p ∈ s.otherPointers, p.toNat < s.cfg.space) (hform : Memory.wf s.tmem)
    (hbounds : ∀ x ∈ s.tmem, x.1 < s.cfg.space) : (s.resetInstance seeds).Inv where
  octaves := resetInstance_octaveStack s seeds
  ownPointers := by simp [Config.space_pos]
  otherPointers := hother
  tableForm := hform
  tableBounds := hbounds
  reservedBits := by simp
  records p := .of_zero rfl (by cases p <;> rfl)

/-- Settles O3: the power-on state is its own reset. -/
theorem powerOnMeetsInvariant : Obligations.PowerOnMeetsInvariant :=
  resetInstance_inv (s := State.reset) State.reset.phase (by simp [State.reset]) Memory.nil_wf
    (by simp [State.reset])

/-- Settles O5: the octave stack alone is kept by every step, so it needs no premise on table
memory. -/
theorem octaveStackOnEveryRun : Obligations.OctaveStackOnEveryRun := by
  intro s seeds n t h
  exact run_keeps (fun _ _ => step_keepsOctaveStack) n _ t (resetInstance_octaveStack s seeds) h

end Sys2Proof.Machine
end

section
/-! PROOFS. The other statements of 10_state.md: the registers at power-on, the gains, table memory,
CONFIG, STATUS, the phases and the response streams over all steps and runs. -/

namespace Sys2Proof.Machine

/-! ### CONFIG (R50) -/

/-- A concatenation read as a number: the high part counts in units of the low part's span. -/
theorem toNat_append_eq_add {m n : Nat} (x : BitVec m) (y : BitVec n) :
    (x ++ y).toNat = x.toNat * 2 ^ n + y.toNat := by
  rw [BitVec.toNat_append, ← Nat.shiftLeft_add_eq_or_of_lt y.isLt, Nat.shiftLeft_eq]

theorem configWord_toNat {c : Config} (hw : c.wellFormed = true) : (configWord c).toNat =
    7 * 2 ^ 24 + c.addrBits * 2 ^ 16 + c.log2Rate * 2 ^ 8 + c.log2Cells := by
  obtain ⟨hk, hr, -, ha⟩ := (Config.wellFormed_iff c).mp hw
  simp only [configWord, toNat_append_eq_add, BitVec.toNat_ofNat]
  omega

theorem State.readReg_config (s : State) : s.readReg 0x31#16 = configWord s.cfg := rfl

/-- Settles O41: no step changes the parameters, and CONFIG is made of them. -/
theorem configIsHardwired : Obligations.ConfigIsHardwired := by
  refine ⟨fun c hw => configWord_toNat hw, fun s t h => ?_⟩
  rw [State.readReg_config, State.readReg_config, step_cfg h]

/-- Settles O1. -/
theorem powerOnRegisters : Obligations.PowerOnRegisters := by
  refine ⟨fun i => by simp [State.reset], rfl, rfl, rfl, rfl, rfl, rfl, rfl, ?_, rfl, rfl, rfl, rfl⟩
  exact configWord_toNat (by decide)

/-! ### The gains (R42, R43) -/

/-- With every gain 0 each product of the mix is 0, whatever the cells read. -/
theorem State.mix_of_zeroGains {s : State} (hg : ∀ j : Fin 7, s.gain1[j] = 0#8 ∧ s.gain2[j] = 0#8)
    (p : Lanes Word) (off : Word) : s.mix p off = 0#16 := by
  have hterm : ∀ i, s.laneTerm p off i = 0 := by
    intro i
    obtain ⟨h1, h2⟩ := hg i
    simp [State.laneTerm, h1, h2]
  simp [State.mix, State.mixSum_eq, hterm, sampleOfSum, floorShift]

/-- Settles O16. -/
theorem zeroGainsRespondZero : Obligations.ZeroGainsRespondZero := by
  refine ⟨fun s seeds i => by simp, fun s i hp hg => ?_⟩
  have hmix := State.mix_of_zeroGains hg
  cases i with
  | next | peek | phmod => exact ⟨_, rfl, by simp [hmix, sampleWord]⟩
  | setwt | setfreq | setnote | setnotesh | setgains | rdreg => cases hp

/-- R205: with a mix within its range no scale is negative and they sum to at most 36. -/
theorem scales_withinContract {mix : Half} (hm : mix.toNat ≤ 64) :
    0 ≤ scaleOne mix ∧ 0 ≤ scaleTwo mix ∧ scaleOne mix + scaleTwo mix ≤ 36 := by
  unfold scaleOne scaleTwo
  rw [Int.tdiv_eq_ediv_of_nonneg (by omega), Int.tdiv_eq_ediv_of_nonneg (by omega)]
  omega

/-- R211 at one harmonic: floors sum to at most the floor of the sum, 1023 * 36 / 1024. -/
theorem gainValues_withinContract {g mix : Half} (hg : g.toNat ≤ 1023) (hm : mix.toNat ≤ 64) :
    0 ≤ (gainValue g (scaleOne mix)).toInt ∧ 0 ≤ (gainValue g (scaleTwo mix)).toInt ∧
      (gainValue g (scaleOne mix)).toInt + (gainValue g (scaleTwo mix)).toInt ≤ 35 := by
  obtain ⟨h1, h2, hsum⟩ := scales_withinContract hm
  rw [gainValue_toInt h1 (by omega) hg, gainValue_toInt h2 (by omega) hg]
  have hx : 0 ≤ (g.toNat : Int) * scaleOne mix := by positivity
  have hy : 0 ≤ (g.toNat : Int) * scaleTwo mix := by positivity
  have hxy : (g.toNat : Int) * scaleOne mix + g.toNat * scaleTwo mix ≤ 1023 * 36 := by
    rw [← mul_add]
    exact mul_le_mul (by exact_mod_cast hg) hsum (by omega) (by norm_num)
  omega

/-- R211: a command within its contract keeps the contract of the gains. -/
theorem exec_keepsGainsWithinContract {i : Instr} {s t : State} (hi : i.WithinContract)
    (hs : s.GainsWithinContract) (h : exec i s = .next t) : t.GainsWithinContract := by
  obtain ⟨h1, h2⟩ | ⟨g0, g1, g2, g3, g4, g5, g6, mix, rfl, h1, h2⟩ := exec_gains h
  · simpa [State.GainsWithinContract, h1, h2] using hs
  · obtain ⟨l0, l1, l2, l3, l4, l5, l6, hm⟩ := hi
    intro j
    rw [h1, h2, gainStack_reversed, gainStack_reversed]
    refine gainValues_withinContract ?_ hm
    fin_cases j <;> assumption

theorem resetInstance_gainsWithinContract (s : State) (seeds : Lanes Word) :
    (s.resetInstance seeds).GainsWithinContract := by
  intro i
  simp

theorem step_keepsGainsWithinContract {s t : State} (hs : s.GainsWithinContract)
    (hserve : s.ServesContract) (h : step s = .next t) : t.GainsWithinContract := by
  obtain ⟨p, i, rest, hm, -, hd, he⟩ | ⟨seeds, -, rfl⟩ | hsame := step_settings h
  · refine exec_keepsGainsWithinContract (hserve p i rest hm hd) ?_ he
    simpa [State.GainsWithinContract] using hs
  · exact resetInstance_gainsWithinContract _ _
  · simpa [State.GainsWithinContract, hsame.gain1, hsame.gain2] using hs

/-- A property kept by every step from a state that meets a condition holds at the end of every run
whose states before the last meet it. -/
theorem run_keeps_while {P C : State → Prop} (hstep : ∀ s t, P s → C s → step s = .next t → P t) :
    ∀ (n : Nat) (s t : State), P s →
      (∀ m u, m < n → Sys2Proof.core.run m s = .next u → C u) →
      Sys2Proof.core.run n s = .next t → P t := by
  intro n
  induction n with
  | zero => intro s t hs _ h; cases h; exact hs
  | succ n ih =>
    intro s t hs hc h
    obtain ⟨u, hu, h⟩ := run_succ_inv h
    refine ih u t (hstep s u hs (hc 0 s n.succ_pos (run_zero s)) hu) (fun m v hm hv => ?_) h
    exact hc (m + 1) v (Nat.succ_lt_succ hm) ((run_succ hu).trans hv)

/-- Settles O35, by the step lemma over the run. -/
theorem gainContractOnEveryRun : Obligations.GainContractOnEveryRun := by
  intro s seeds n t hserve h
  exact run_keeps_while (fun _ _ => step_keepsGainsWithinContract) n _ t
    (resetInstance_gainsWithinContract s seeds) hserve h

/-! ### Table memory, STATUS, phases and streams (R36, R49, R52, R71) -/

/-- Settles O25. -/
theorem onlyHostWritesChangeTableMemory : Obligations.OnlyHostWritesChangeTableMemory := by
  intro s t h hne
  obtain hm | ⟨addr, v, hw, -, -⟩ := step_tmem h
  · exact hm
  · exact absurd hw (hne addr v)

/-- R252: recording a fault clears no bit below the cause fields. -/
theorem withFault_keepsLowBits {st : Word} {b : Nat} (hb : b < 5) (h : st.getLsbD b = true)
    (p : Port) (cause : Cause) : (withFault p cause st).getLsbD b = true := by
  have hmask : (causeMask p).getLsbD b = false := by
    interval_cases b <;> cases p <;> rfl
  simp only [withFault, BitVec.getLsbD_or, BitVec.getLsbD_and, BitVec.getLsbD_not, h, hmask]
  simp [show b < 32 by omega]

/-- Settles O56. -/
theorem statusBitsAreSticky : Obligations.StatusBitsAreSticky := by
  intro s t b h hne hb hset
  obtain ⟨m, hst⟩ | ⟨p, cause, hst⟩ | ⟨seeds, hm, -⟩ := step_status h
  · simp [hst, hset]
  · rw [hst]; exact withFault_keepsLowBits hb hset p cause
  · exact absurd hm (hne seeds)

/-- R108: the commands that advance the phases are port A's. -/
theorem port_of_advances {i : Instr} (h : i.advances = true) : i.opcode.port = .a := by
  cases i with
  | next | phmod => rfl
  | peek | setwt | setfreq | setnote | setnotesh | setgains | rdreg => cases h

/-- Settles O57. -/
theorem phasesChangeOnlyByAdvance : Obligations.PhasesChangeOnlyByAdvance := by
  intro s t h hne hphase
  obtain ⟨p, i, rest, hm, hrun, hd, he⟩ | ⟨seeds, hm, -⟩ | hsame := step_settings h
  · obtain hadv | heq := exec_phase he
    · obtain rfl : p = .a := (decode_command_port hd).symm.trans (port_of_advances hadv)
      exact ⟨hm, hrun, i, rest, hd, hadv⟩
    · exact absurd (by simpa using heq) hphase
  · exact absurd hm (hne seeds)
  · exact absurd hsame.phase hphase

/-- Settles O58. -/
theorem consumeTakesOldest : Obligations.ConsumeTakesOldest := by
  intro s w ws ms hw
  refine ⟨fun hm hresp => ?_, fun hm hresp => ?_⟩
  all_goals
    rw [step_of_moves hw hm]
    simp [State.perform, State.consume, State.setResp, State.resp, hresp]

end Sys2Proof.Machine
end

section
/-! PROOFS. Table memory as the sample commands and the host see it (R72, R73, R75, R81, R82): cell
addresses and the referenced set, that a mix depends on no other cell, and the host's writes. -/

namespace Sys2Proof.Machine

/-! ### Reads and addresses (R72, R73) -/

/-- R72 where the platform does not back the address. -/
theorem State.tableRead_unmapped {s : State} {addr : Nat} (n : Nat)
    (h : isMapped s.cfg addr = false) : s.tableRead n addr = Config.freeCell (s.draws + n) := by
  simp [State.tableRead, h]

/-- Settles O21. -/
theorem tableReadGivesCellOrDraw : Obligations.TableReadGivesCellOrDraw := by
  intro s n a
  exact ⟨State.tableRead_mapped n, State.tableRead_unmapped n⟩

theorem cellAddress_at_space {c : Config} {p : Word} {idx : Nat} (h : p.toNat + idx = c.space) :
    cellAddress c p idx = 0 := by
  rw [cellAddress, h, Nat.mod_self]

/-- Settles O22. -/
theorem cellAddressWraps : Obligations.CellAddressWraps := by
  intro c p idx
  exact ⟨rfl, cellAddress_at_space⟩

/-- R71: only addresses of the space are backed. -/
theorem isMapped_lt {c : Config} {addr : Nat} (h : isMapped c addr = true) : addr < c.space := by
  simp only [isMapped, Bool.and_eq_true, decide_eq_true_eq] at h
  exact h.1

/-! ### The referenced set (R75) -/

/-- `p` and the complement that `isReferencedBy` adds in place of subtracting `p` are whole turns. -/
theorem add_complement_eq_turns {n : Nat} (hn : 0 < n) (p : Nat) :
    p + (n - p % n) = n * (p / n + 1) := by
  have := Nat.div_add_mod p n
  have := Nat.mod_lt p hn
  rw [Nat.mul_succ]
  omega

/-- Going from `p` by the distance to `a` arrives at `a`. -/
theorem add_distance_mod {n : Nat} (hn : 0 < n) (p a : Nat) :
    (p + (a + (n - p % n)) % n) % n = a % n := by
  rw [Nat.add_mod_mod, Nat.add_left_comm, add_complement_eq_turns hn, Nat.add_mul_mod_self_left]

/-- The distance from `p` to the address `j` past it is `j`, up to whole turns. -/
theorem distance_add_mod {n : Nat} (hn : 0 < n) (p j : Nat) :
    ((p + j) % n + (n - p % n)) % n = j % n := by
  rw [Nat.mod_add_mod, Nat.add_right_comm, add_complement_eq_turns hn, Nat.add_comm,
    Nat.add_mul_mod_self_left]

/-- R75: the check of an address's distance from the pointer finds the cells of its table. -/
theorem isReferencedBy_iff (c : Config) (p : Word) (a : Nat) :
    isReferencedBy c p a = true ↔ ∃ j, j < c.cells ∧ cellAddress c p j = a := by
  have hspace := Config.space_pos c
  simp only [isReferencedBy, Bool.and_eq_true, decide_eq_true_eq, cellAddress]
  constructor
  · rintro ⟨ha, hdist⟩
    exact ⟨_, hdist, by rw [add_distance_mod hspace, Nat.mod_eq_of_lt ha]⟩
  · rintro ⟨j, hj, rfl⟩
    refine ⟨Nat.mod_lt _ hspace, ?_⟩
    rw [distance_add_mod hspace]
    exact Nat.lt_of_le_of_lt (Nat.mod_le _ _) hj

/-- R75, R94: the referenced set is the union over the own pointers and those of the others. -/
theorem State.isReferenced_iff (s : State) (a : Nat) : s.isReferenced a = true ↔
    ∃ p ∈ s.pointers ++ s.otherPointers, ∃ j, j < s.cfg.cells ∧ cellAddress s.cfg p j = a := by
  simp only [State.isReferenced, List.any_eq_true, isReferencedBy_iff]

/-- A cell of one of the own tables is in the referenced set. -/
theorem State.isReferenced_of_own {s : State} {p : Word} {a : Nat} (hp : p ∈ s.pointers)
    (h : isReferencedBy s.cfg p a = true) : s.isReferenced a = true :=
  List.any_eq_true.mpr ⟨p, List.mem_append_left _ hp, h⟩

/-! ### A sample depends on the cells of its own tables alone (R75) -/

/-- Table memory `m` holds what the machine's own does at every cell of the four own tables (R75). -/
def State.AgreesOnTables (s : State) (m : List Host.Cell) : Prop :=
  ∀ p ∈ s.pointers, ∀ a, isReferencedBy s.cfg p a = true → Memory.read m a = Memory.read s.tmem a

theorem State.laneTables_mem (s : State) (i : Fin 7) :
    (s.laneTables i).1 ∈ s.pointers ∧ (s.laneTables i).2 ∈ s.pointers := by
  unfold State.laneTables
  split <;> simp [State.pointers]

theorem State.tableRead_of_agrees {s : State} {m : List Host.Cell} (h : s.AgreesOnTables m)
    {p : Word} (hp : p ∈ s.pointers) {idx : Nat} (hidx : idx < s.cfg.cells) (n : Nat) :
    { s with tmem := m }.tableRead n (cellAddress s.cfg p idx) =
      s.tableRead n (cellAddress s.cfg p idx) := by
  have hread := h p hp _ ((isReferencedBy_iff _ _ _).mpr ⟨idx, hidx, rfl⟩)
  simp [State.tableRead, hread]

/-- R141: each harmonic reads one cell of each of its two tables, so its term is the same. -/
theorem State.laneTerm_of_agrees {s : State} {m : List Host.Cell} (h : s.AgreesOnTables m)
    (p : Lanes Word) (off : Word) (i : Fin 7) :
    { s with tmem := m }.laneTerm p off i = s.laneTerm p off i := by
  obtain ⟨h1, h2⟩ := s.laneTables_mem i
  have hidx : s.laneIndex p off i < s.cfg.cells := tableIndex_lt _ _
  have read1 := State.tableRead_of_agrees h h1 hidx (2 * i.val)
  have read2 := State.tableRead_of_agrees h h2 hidx (2 * i.val + 1)
  exact congrArg₂ (fun c1 c2 : Byte => c1.toInt * s.gain1[i].toInt + c2.toInt * s.gain2[i].toInt)
    read1 read2

theorem State.mix_of_agrees {s : State} {m : List Host.Cell} (h : s.AgreesOnTables m)
    (p : Lanes Word) (off : Word) : { s with tmem := m }.mix p off = s.mix p off := by
  simp [State.mix, State.mixSum_eq, State.laneTerm_of_agrees h]

theorem State.emitSample_of_agrees {s : State} {m : List Host.Cell} (h : s.AgreesOnTables m)
    (off : Word) :
    { s with tmem := m }.emitSample off = { s.emitSample off with tmem := m } := by
  simp only [State.emitSample, State.mix_of_agrees h]
  rfl

/-- R75: a sample command does the same with any table memory that agrees on the four tables. -/
theorem exec_sample_of_agrees {s : State} {m : List Host.Cell} {i : Instr}
    (hi : i.opcode.port = .a) (h : s.AgreesOnTables m) :
    ∃ t, exec i s = .next t ∧ exec i { s with tmem := m } = .next { t with tmem := m } := by
  have hadv : s.advance.AgreesOnTables m := h
  cases i with
  | next => exact ⟨_, rfl, congrArg _ (State.emitSample_of_agrees hadv _)⟩
  | peek => exact ⟨_, rfl, congrArg _ (State.emitSample_of_agrees h _)⟩
  | phmod => exact ⟨_, rfl, congrArg _ (State.emitSample_of_agrees hadv _)⟩
  | setwt | setfreq | setnote | setnotesh | setgains | rdreg => cases hi

/-- Settles O20. -/
theorem samplesReadOnlyReferencedCells : Obligations.SamplesReadOnlyReferencedCells := by
  refine ⟨isReferencedBy_iff, fun s m i hi h => exec_sample_of_agrees hi fun p hp a ha => h a ?_⟩
  simp only [State.pointers, List.mem_cons, List.not_mem_nil, or_false] at hp
  obtain rfl | rfl | rfl | rfl := hp <;> simp [ha]

/-! ### The host's writes (R81, R82) -/

theorem State.hostWrite_outside {s : State} {addr : Nat} (v : Byte) (h : s.cfg.space ≤ addr) :
    s.hostWrite addr v = .fault (.hostWriteOutsideTableMemory addr) := by
  simp [State.hostWrite, h]

theorem State.hostWrite_unmapped {s : State} {addr : Nat} (v : Byte) (hlt : addr < s.cfg.space)
    (h : isMapped s.cfg addr = false) :
    s.hostWrite addr v = .refused (.hostWriteToUnmappedCell addr) := by
  simp [State.hostWrite, hlt, h]

theorem State.hostWrite_referenced {s : State} {addr : Nat} (v : Byte)
    (hmap : isMapped s.cfg addr = true) (h : s.isReferenced addr = true) :
    s.hostWrite addr v = .refused (.hostWriteToReferencedCell addr) := by
  simp [State.hostWrite, isMapped_lt hmap, hmap, h]

theorem State.hostWrite_allowed {s : State} {addr : Nat} (v : Byte)
    (hmap : isMapped s.cfg addr = true) (h : s.isReferenced addr = false) :
    s.hostWrite addr v = .next { s with tmem := Memory.write s.tmem addr v } := by
  simp [State.hostWrite, isMapped_lt hmap, hmap, h]

/-- Settles O23: the four outcomes of a host write, read after write for the allowed one. -/
theorem hostWriteMove : Obligations.HostWriteMove := by
  intro s a v ms hw hm hsorted
  have hstep : step s = { s with moves := ms }.hostWrite a v := step_of_moves hw hm
  rw [hstep]
  refine ⟨fun hmap hfree => ?_, fun hmap href => ?_, fun hlt hmap => ?_, fun hout => ?_⟩
  · have href : s.isReferenced a = false := by
      rw [← Bool.not_eq_true, State.isReferenced_iff]
      rintro ⟨p, hp, j, hj, ha⟩
      exact hfree p hp j hj ha
    exact ⟨_, State.hostWrite_allowed v hmap href, rfl, Memory.read_write_same _ _ _ hsorted,
      fun b hb => Memory.read_write_other _ _ hb⟩
  · exact State.hostWrite_referenced v hmap ((s.isReferenced_iff a).mpr href)
  · exact State.hostWrite_unmapped v hlt hmap
  · exact State.hostWrite_outside v hout

/-- R82: a write outside the referenced set leaves every cell of the four tables as it was. -/
theorem State.agreesOnTables_write {s : State} {addr : Nat} (h : s.isReferenced addr = false)
    (v : Byte) : s.AgreesOnTables (Memory.write s.tmem addr v) := by
  intro p hp a ha
  refine Memory.read_write_other _ _ ?_
  rintro rfl
  rw [State.isReferenced_of_own hp ha] at h
  cases h

/-- Settles O24. -/
theorem allowedHostWriteIsInaudible : Obligations.AllowedHostWriteIsInaudible := by
  intro s u a v i hi h
  obtain ⟨-, -, href, rfl⟩ := State.hostWrite_next h
  exact exec_sample_of_agrees hi (State.agreesOnTables_write href v)

end Sys2Proof.Machine
end

section
/-! PROOFS. The byte view of a word (R77). -/

namespace Sys2Proof.Machine

theorem wordOfBytes_toNat (b0 b1 b2 b3 : Byte) : (wordOfBytes b0 b1 b2 b3).toNat =
    b0.toNat + b1.toNat * 2 ^ 8 + b2.toNat * 2 ^ 16 + b3.toNat * 2 ^ 24 := by
  simp only [wordOfBytes, toNat_append_eq_add]
  omega

theorem byteOfWord_toNat (w : Word) (n : Nat) :
    (byteOfWord w n).toNat = w.toNat / 2 ^ (8 * n) % 2 ^ 8 := by
  simp [byteOfWord, Nat.shiftRight_eq_div_pow]

theorem wordOfBytes_byteOfWord (w : Word) :
    wordOfBytes (byteOfWord w 0) (byteOfWord w 1) (byteOfWord w 2) (byteOfWord w 3) = w := by
  apply BitVec.eq_of_toNat_eq
  have := w.isLt
  simp only [wordOfBytes_toNat, byteOfWord_toNat]
  omega

/-- Settles O47. -/
theorem byteViewIsLittleEndian : Obligations.ByteViewIsLittleEndian :=
  ⟨wordOfBytes_toNat, wordOfBytes_byteOfWord⟩

end Sys2Proof.Machine
end

section
/-! PROOFS. Whole steps (R85 to R87, R92, R104, R266): what the service of a port is, and what a step
does to the settings, the packet buffers and the response streams. -/

namespace Sys2Proof.Machine

/-! ### The service of a port -/

/-- R104: a port that holds a whole packet performs its command, the packet taken. -/
theorem State.servePort_command {s : State} {p : Port} {i : Instr} {rest : List Word}
    (hrun : s.halted p = false) (hd : decode p (s.pend p) = .command i rest) :
    s.servePort p = exec i (s.setPend p rest) := by
  simp [State.servePort, hrun, hd]

/-- R104, R253: the service of a port without a step does nothing. -/
theorem State.servePort_of_not_ready {s : State} {p : Port} (h : s.ready p = false) :
    s.servePort p = .next s := by
  unfold State.ready at h
  unfold State.servePort
  cases hh : s.halted p with
  | true => rfl
  | false =>
    cases hd : decode p (s.pend p) with
    | waiting => rfl
    | illegal | command => simp [hh, hd] at h

/-- Settles O49. -/
theorem stepRunsDecodedCommand : Obligations.StepRunsDecodedCommand := by
  intro s p i rest hw hm hrun hd
  rw [step_of_wellFormed hw, hm]
  exact State.servePort_command (s := s.dropMove) hrun (by simpa using hd)

theorem State.dropMove_of_nil {s : State} (hm : s.moves = []) : s.dropMove = s := by
  cases s
  cases hm
  rfl

/-- With no move left a step serves the port that `State.idleMove` names. -/
theorem step_of_no_moves {s : State} (hw : s.cfg.wellFormed = true) (hm : s.moves = []) :
    step s = s.servePort (if s.ready .a then .a else .c) := by
  rw [step_of_wellFormed hw, State.dropMove_of_nil hm]
  simp only [State.nextMove, hm, State.idleMove]
  split <;> rfl

/-- Settles O59. -/
theorem idleMachineServesOrStands : Obligations.IdleMachineServesOrStands := by
  intro s hw hm
  rw [step_of_no_moves hw hm]
  refine ⟨fun ha => by simp [ha], fun ha _ => by simp [ha], fun ha hc => ?_⟩
  simpa [ha] using State.servePort_of_not_ready hc

/-! ### The settings (R87, R180) -/

theorem State.pointers_eq_iff {s t : State} : t.pointers = s.pointers ↔
    t.wave1 = s.wave1 ∧ t.bass1 = s.bass1 ∧ t.wave2 = s.wave2 ∧ t.bass2 = s.bass2 := by
  simp [State.pointers]

/-- R180: a port A command writes no increment, no gain and no pointer. -/
theorem exec_sample_setters {i : Instr} {s t : State} (hi : i.opcode.port = .a)
    (h : exec i s = .next t) : t.inc = s.inc ∧ t.gain1 = s.gain1 ∧ t.gain2 = s.gain2 ∧
      t.pointers = s.pointers := by
  cases i with
  | next | peek | phmod => cases h; exact ⟨rfl, rfl, rfl, rfl⟩
  | setwt | setfreq | setnote | setnotesh | setgains | rdreg => cases hi

/-- Settles O38: the step of a port A command is in the first case, of a port C command in the
second. -/
theorem settersAreNeverTorn : Obligations.SettersAreNeverTorn := by
  intro s t h hne
  obtain ⟨p, i, rest, -, -, hd, he⟩ | ⟨seeds, hm, -⟩ | hsame := step_settings h
  · have hport := decode_command_port hd
    cases p with
    | a =>
      obtain ⟨hinc, h1, h2, hp⟩ := exec_sample_setters hport he
      exact .inl ⟨hinc, h1, h2, State.pointers_eq_iff.mp hp⟩
    | c => exact .inr ⟨i, rest, hport, hd, he⟩
  · exact absurd hm (hne seeds)
  · exact .inl ⟨hsame.inc, hsame.gain1, hsame.gain2, State.pointers_eq_iff.mp hsame.pointers⟩

/-! ### The packet buffers (R86, R92) -/

/-- R104: a delivery only adds to the words of a port. -/
theorem State.pend_prefix_deliver (s : State) (p q : Port) (w : Word) :
    s.pend p <+: (s.deliver q w).pend p := by
  unfold State.deliver
  split
  · exact List.prefix_rfl
  · by_cases hpq : p = q
    · subst hpq; simp
    · rw [State.setPend_pend_other _ _ hpq]

/-- R256: the fault of one port leaves the words of the other. -/
theorem State.illegalCommand_pend_other (s : State) {p q : Port} (h : q ≠ p) (cause : Cause)
    (hdr : Word) : (s.illegalCommand p cause hdr).pend q = s.pend q := by
  cases q <;> simp [State.pend, h.symm]

/-- Settles O54. -/
theorem pendingWordsAreNeverLost : Obligations.PendingWordsAreNeverLost := by
  intro s t p h hreset hserve
  have of_eq {u : State} (hu : u.pend p = s.pend p) : s.pend p <+: u.pend p :=
    hu ▸ List.prefix_rfl
  have hne {q : Port} (hm : s.nextMove = .serve q) : p ≠ q := by
    rintro rfl
    exact hserve hm
  cases step_effect h with
  | deliver q w => simpa using s.dropMove.pend_prefix_deliver p q w
  | fault q cause hdr hm =>
    exact of_eq (by simp [State.illegalCommand_pend_other _ (hne hm)])
  | command q i rest _ hm _ _ he =>
    obtain ⟨-, -, -, hpa, hpc, -⟩ := exec_untouched he
    exact of_eq (by simp [State.pend_congr hpa hpc, State.setPend_pend_other _ _ (hne hm)])
  | reset seeds hm => exact absurd hm (hreset seeds)
  | stand | tableWrite | consume | otherInstances =>
    exact of_eq (State.pend_congr (by simp) (by simp) p)

/-! ### The response streams (R52, R86, R147) -/

theorem State.resp_congr {s t : State} (ha : t.respA = s.respA) (hc : t.respC = s.respC)
    (p : Port) : t.resp p = s.resp p := by cases p <;> assumption

/-- The host's consumption of one stream leaves the other. -/
theorem State.consume_resp_other (s : State) {p q : Port} (h : q ≠ p) :
    (s.consume p).resp q = s.resp q := by
  cases q <;> simp [State.resp, h.symm]

/-- R147, R230: a command appends one word to one stream at most. -/
theorem exec_resp {i : Instr} {s t : State} (h : exec i s = .next t) (p : Port) :
    t.resp p = s.resp p ∨ ∃ w, t.resp p = s.resp p ++ [w] := by
  cases i with
  | next | peek | phmod =>
    cases h
    cases p with
    | a => exact .inr ⟨_, rfl⟩
    | c => exact .inl rfl
  | rdreg reg =>
    cases h
    cases p with
    | a => exact .inl rfl
    | c => exact .inr ⟨_, rfl⟩
  | setwt | setfreq | setnote | setnotesh | setgains =>
    cases h
    exact .inl (State.resp_congr rfl rfl p)

/-- Settles O55. -/
theorem responsesAppendInOrder : Obligations.ResponsesAppendInOrder := by
  intro s t p h hreset hconsume
  cases step_effect h with
  | command q i rest _ _ _ _ he =>
    have hs : (s.dropMove.setPend q rest).resp p = s.resp p :=
      State.resp_congr (by simp) (by simp) p
    rw [← hs]
    exact exec_resp he p
  | consume q hm =>
    have hne : p ≠ q := by
      rintro rfl
      exact hconsume hm
    exact .inl ((s.dropMove.consume_resp_other hne).trans (State.resp_congr rfl rfl p))
  | reset seeds hm => exact absurd hm (hreset seeds)
  | deliver | stand | fault | tableWrite | otherInstances =>
    exact .inl (State.resp_congr (by simp) (by simp) p)

end Sys2Proof.Machine
end

section
/-! PROOFS. Packets to commands and back (30_encoding.md): encoding and decoding are inverse, and which
headers are illegal (R101 to R111). -/

namespace Sys2Proof

/-! ### The packet of a command (R101 to R107) -/

/-- IMM16 of a command's header (R101). -/
def Instr.imm : Instr → Half
  | .next | .peek | .phmod _ | .setwt _ _ _ _ | .setfreq _ | .setgains _ _ _ _ _ _ _ _ => 0#16
  | .setnote note => note
  | .setnotesh note _ => note
  | .rdreg reg => reg

/-- The operand words of a command's packet (R102, R103). -/
def Instr.operands : Instr → List Word
  | .next | .peek | .setnote _ | .rdreg _ => []
  | .phmod proportion => [proportion]
  | .setwt w1 b1 w2 b2 => [w1, b1, w2, b2]
  | .setfreq frequency => [frequency]
  | .setnotesh _ shift => [shift]
  | .setgains g0 g1 g2 g3 g4 g5 g6 mix =>
    [packPair g0 g1, packPair g2 g3, packPair g4 g5, packPair g6 mix]

/-- R103: a packet is the row's header and its operand words. -/
theorem encode_eq (i : Instr) : encode i = packHeader i.opcode i.imm :: i.operands := by
  cases i <;> rfl

/-- R101: IMM16 is 0 where the row makes no use of it. -/
theorem Instr.imm_eq_zero {i : Instr} (h : i.opcode.usesImm = false) : i.imm = 0#16 := by
  cases i with
  | next | peek | phmod | setwt | setfreq | setgains => rfl
  | setnote | setnotesh | rdreg => cases h

/-- R103: a packet has as many operand words as its row gives. -/
theorem Instr.length_operands (i : Instr) : i.operands.length = i.opcode.operandWords := by
  cases i <;> rfl

/-- A row's operands, put into words and assembled again (R106, R107). -/
theorem assembleOperands_operands (i : Instr) (rest : List Word) :
    assembleOperands i.opcode i.imm (i.operands ++ rest) = .command i rest := by
  cases i with
  | next | peek | phmod | setwt | setfreq | setnote | setnotesh | rdreg => rfl
  | setgains => simp [assembleOperands, Instr.operands, Instr.opcode]

/-- The words that assemble to a command are its operand words and the rest (R105: no operand bit is
dropped). -/
theorem eq_operands_of_assembleOperands {o : Opcode} {imm : Half} {ws rest : List Word} {i : Instr}
    (h : assembleOperands o imm ws = .command i rest) : ws = i.operands ++ rest := by
  unfold assembleOperands at h
  split at h <;> cases h <;> simp [Instr.operands]

/-- R106: a row that takes IMM16 takes the whole of it. -/
theorem imm_of_assembleOperands {o : Opcode} {imm : Half} {ws rest : List Word} {i : Instr}
    (h : assembleOperands o imm ws = .command i rest) (hu : o.usesImm = true) : i.imm = imm := by
  cases o with
  | next | peek | phmod | setwt | setfreq | setgains => cases hu
  | setnote | rdreg => cases h; rfl
  | setnotesh =>
    cases ws with
    | nil => cases h
    | cons w ws => cases h; rfl

/-! ### Decoding an encoding -/

/-- R108: a header of the other port's row is illegal there, whatever its other fields. -/
theorem headerCause_wrongPort {p : Port} {h : Word} {o : Opcode}
    (ho : Opcode.ofCode? (headerOpc h) = some o) (hp : o.port ≠ p) :
    headerCause p h = some .wrongPort := by
  simp [headerCause, ho, hp]

theorem decode_encode (i : Instr) (rest : List Word) :
    decode i.opcode.port (encode i ++ rest) = .command i rest := by
  have hlegal : headerCause i.opcode.port (packHeader i.opcode i.imm) = none :=
    headerCause_packHeader _ _ Instr.imm_eq_zero
  have hrow : Opcode.ofCode? (headerOpc (packHeader i.opcode i.imm)) = some i.opcode := by simp
  rw [encode_eq, List.cons_append, decode_legal _ hlegal hrow, headerImm_packHeader,
    assembleOperands_operands]

theorem decode_encode_other {p : Port} {i : Instr} (hp : p ≠ i.opcode.port) (rest : List Word) :
    decode p (encode i ++ rest) = .illegal .wrongPort (packHeader i.opcode i.imm) := by
  rw [encode_eq, List.cons_append]
  exact decode_illegal _ (headerCause_wrongPort (by simp) hp.symm)

/-- Settles O42. -/
theorem decodeOfEncode : Obligations.DecodeOfEncode :=
  fun i rest => ⟨decode_encode i rest, fun _ hp => ⟨_, decode_encode_other hp rest⟩⟩

/-! ### Encoding a decoded command -/

/-- R105: the header of a decoded command is that of its encoding, bit by bit. -/
theorem header_eq_packHeader {p : Port} {h : Word} {ws rest : List Word} {i : Instr}
    (hc : headerCause p h = none) (ho : Opcode.ofCode? (headerOpc h) = some i.opcode)
    (ha : assembleOperands i.opcode (headerImm h) ws = .command i rest) :
    h = packHeader i.opcode i.imm := by
  obtain ⟨o, ho', -, hrsv, himm⟩ := headerCause_none hc
  obtain rfl : i.opcode = o := Option.some.inj (ho.symm.trans ho')
  apply header_ext
  · rw [headerOpc_packHeader, Opcode.code_of_ofCode? ho]
  · rw [headerRsv_packHeader, hrsv]
  · rw [headerImm_packHeader]
    cases hu : i.opcode.usesImm with
    | false => rw [himm hu, Instr.imm_eq_zero hu]
    | true => exact (imm_of_assembleOperands ha hu).symm

/-- Settles O43. -/
theorem encodeOfDecode : Obligations.EncodeOfDecode := by
  intro p ws rest i hd
  refine ⟨?_, decode_command_port hd⟩
  obtain ⟨h, tl, o, rfl, hc, ho, ha⟩ := decode_command_inv hd
  obtain rfl := assembleOperands_opcode ha
  rw [encode_eq, List.cons_append, ← header_eq_packHeader hc ho ha,
    ← eq_operands_of_assembleOperands ha]

/-! ### Illegal headers (R108, R109) -/

/-- The rows of a port (R108). -/
def Port.rows : Port → List Opcode
  | .a => [.next, .peek, .phmod]
  | .c => [.setwt, .setfreq, .setnote, .setnotesh, .setgains, .rdreg]

theorem Port.mem_rows {p : Port} {o : Opcode} : o ∈ p.rows ↔ o.port = p := by
  cases p <;> cases o <;> decide

/-- The OPC values of a port (R108). -/
def Port.codes (p : Port) : List Byte := p.rows.map Opcode.code

theorem Opcode.ofCode?_eq_some_iff {b : Byte} {o : Opcode} :
    Opcode.ofCode? b = some o ↔ o.code = b :=
  ⟨Opcode.code_of_ofCode?, fun h => h ▸ Opcode.ofCode?_code o⟩

theorem Port.mem_codes {p : Port} {b : Byte} :
    b ∈ p.codes ↔ ∃ o, Opcode.ofCode? b = some o ∧ o.port = p := by
  simp [Port.codes, Port.mem_rows, Opcode.ofCode?_eq_some_iff, and_comm]

/-- The OPC values whose rows take IMM16 (R101, R109). -/
def immCodes : List Byte := [0x12#8, 0x13#8, 0x20#8]

theorem Opcode.code_mem_immCodes (o : Opcode) : o.code ∈ immCodes ↔ o.usesImm = true := by
  cases o <;> decide

/-- A header of one of the port's rows is legal where RSV is 0 and IMM16 is 0 or an operand. -/
theorem headerCause_eq_none {p : Port} {h : Word} {o : Opcode}
    (ho : Opcode.ofCode? (headerOpc h) = some o) (hp : o.port = p) (hr : headerRsv h = 0#8)
    (hi : o.usesImm = false → headerImm h = 0#16) : headerCause p h = none := by
  simp only [headerCause, ho, hp, hr]
  simpa using fun hne => Bool.eq_true_of_not_eq_false fun hu => hne (hi hu)

/-- R109, read from the side of the legal headers. -/
theorem headerCause_eq_none_iff {p : Port} {h : Word} :
    headerCause p h = none ↔ headerOpc h ∈ p.codes ∧ headerRsv h = 0#8 ∧
      (headerImm h = 0#16 ∨ headerOpc h ∈ immCodes) := by
  constructor
  · intro hc
    obtain ⟨o, ho, hp, hr, hi⟩ := headerCause_none hc
    refine ⟨Port.mem_codes.mpr ⟨o, ho, hp⟩, hr, ?_⟩
    rw [← Opcode.code_of_ofCode? ho, Opcode.code_mem_immCodes]
    cases hu : o.usesImm with
    | false => exact .inl (hi hu)
    | true => exact .inr rfl
  · rintro ⟨hmem, hr, hi⟩
    obtain ⟨o, ho, hp⟩ := Port.mem_codes.mp hmem
    refine headerCause_eq_none ho hp hr fun hu => hi.resolve_right fun hm => ?_
    rw [← Opcode.code_of_ofCode? ho, Opcode.code_mem_immCodes, hu] at hm
    cases hm

/-- R104: whether a port rejects its words is told by the header alone. -/
theorem exists_decode_illegal_iff {p : Port} {h : Word} {ws : List Word} :
    (∃ cause, decode p (h :: ws) = .illegal cause h) ↔ headerCause p h ≠ none := by
  rw [Option.ne_none_iff_exists']
  exact exists_congr fun cause => ⟨fun hd => (decode_illegal_inv hd).1, decode_illegal ws⟩

end Sys2Proof

namespace Sys2Proof.Machine

/-- R252: a running port that holds an illegal header takes the illegal-command fault. -/
theorem State.servePort_illegal {s : State} {p : Port} {cause : Cause} {h : Word}
    (hrun : s.halted p = false) (hd : decode p (s.pend p) = .illegal cause h) :
    s.servePort p = .next (s.illegalCommand p cause h) := by
  simp [State.servePort, hrun, hd]

/-- Settles O45. -/
theorem headerIllegalExactly : Obligations.HeaderIllegalExactly := by
  refine ⟨fun s p h ws cause hrun hpend hd => State.servePort_illegal hrun (hpend ▸ hd),
    fun p h ws => ?_⟩
  rw [exists_decode_illegal_iff, Ne, headerCause_eq_none_iff, not_and_or, not_and_or, not_or]
  cases p <;> rfl

end Sys2Proof.Machine
end

section
/-! PROOFS. The encodings the spec writes out, the pseudo-instructions, and the words a port holds
before its packet is whole (R104, R113, R114). -/

namespace Sys2Proof

/-- Settles O44: each example is evaluated by the decoder. -/
theorem specEncodingsDecode : Obligations.SpecEncodingsDecode :=
  have hzero (p : Port) : headerCause p 0x00000000#32 = some .badOpcode := by cases p <;> rfl
  ⟨rfl, rfl, rfl, rfl, rfl, rfl, rfl, rfl, rfl, rfl, rfl, rfl, hzero, rfl, rfl, rfl⟩

/-- R104: with too few operand words the packet is not whole. -/
theorem assembleOperands_waiting {o : Opcode} {imm : Half} {ws : List Word}
    (h : ws.length < o.operandWords) : assembleOperands o imm ws = .waiting := by
  cases ha : assembleOperands o imm ws with
  | waiting => rfl
  | illegal => exact absurd ha (assembleOperands_ne_illegal _ _ _ _ _)
  | command i rest =>
    rw [eq_operands_of_assembleOperands ha, List.length_append, Instr.length_operands,
      assembleOperands_opcode ha] at h
    omega

/-- R104: a legal header with too few operand words after it waits. -/
theorem decode_waiting {p : Port} {h : Word} {ws : List Word} {o : Opcode}
    (hc : headerCause p h = none) (ho : Opcode.ofCode? (headerOpc h) = some o)
    (hlen : ws.length < o.operandWords) : decode p (h :: ws) = .waiting := by
  rw [decode_legal ws hc ho, assembleOperands_waiting hlen]

end Sys2Proof

namespace Sys2Proof.Machine

/-! ### Deliveries and packets that are not whole (R104) -/

/-- The moves to come are no part of a packet buffer. -/
theorem State.pend_with_moves (s : State) (ms : List Move) (p : Port) :
    State.pend { s with moves := ms } p = s.pend p := State.pend_congr rfl rfl p

theorem State.ready_of_waiting {s : State} {p : Port} (hd : decode p (s.pend p) = .waiting) :
    s.ready p = false := by
  unfold State.ready
  rw [hd]
  cases s.halted p <;> rfl

/-- Settles O51. -/
theorem incompletePacketWaits : Obligations.IncompletePacketWaits := by
  intro s p h ws o ms hw hm hpend hc ho hlen
  rw [step_of_moves hw hm]
  refine State.servePort_of_not_ready (State.ready_of_waiting ?_)
  rw [State.pend_with_moves, hpend, decode_waiting hc ho hlen]

/-- R104: a running port takes a delivered word behind those it holds. -/
theorem State.deliver_of_running {s : State} {p : Port} (w : Word) (hrun : s.halted p = false) :
    s.deliver p w = s.setPend p (s.pend p ++ [w]) := by
  simp [State.deliver, hrun]

theorem step_deliver_of_running {s : State} {p : Port} {w : Word} {ms : List Move}
    (hw : s.cfg.wellFormed = true) (hm : s.moves = .deliver p w :: ms)
    (hrun : s.halted p = false) :
    step s = .next ({ s with moves := ms }.setPend p (s.pend p ++ [w])) := by
  rw [step_of_moves hw hm, State.perform,
    State.deliver_of_running (s := { s with moves := ms }) w hrun, State.pend_with_moves]

/-- Settles O50. -/
theorem deliveryJoinsPacket : Obligations.DeliveryJoinsPacket :=
  fun _ _ _ hw => ⟨step_deliver_of_running hw, step_deliver_of_running hw⟩

/-! ### Pseudo-instructions (R113) -/

/-- R203: a drawbar level of 0 gives a gain of 0 at every scale. -/
@[simp] theorem gainValue_zero (scale : Int) : gainValue 0#16 scale = 0#8 := by
  simp [gainValue, floorShift]

theorem gainStack_zero (scale : Int) (i : Fin 7) :
    (gainStack #v[0#16, 0#16, 0#16, 0#16, 0#16, 0#16, 0#16] scale)[i] = 0#8 := by
  rw [gainStack_reversed, ← gainValue_zero scale]
  congr 1
  fin_cases i <;> rfl

theorem expandSethz_eq_some {h : Nat} (hh : h ≤ 65535) :
    expandSethz h = some (.setfreq (BitVec.ofNat 32 (h * 65536))) := by
  simp [expandSethz, hh]

theorem expandSethz_eq_none {h : Nat} (hh : 65535 < h) : expandSethz h = none := by
  simp [expandSethz, hh]

/-- Settles O48. -/
theorem pseudoInstructionsExpand : Obligations.PseudoInstructionsExpand := by
  refine ⟨fun h hh => ⟨_, expandSethz_eq_some hh, ?_⟩, fun h hh => expandSethz_eq_none hh, rfl,
    fun s => ⟨_, rfl, fun i => ⟨gainStack_zero _ i, gainStack_zero _ i⟩⟩⟩
  rw [BitVec.toNat_ofNat, Nat.mod_eq_of_lt (by omega)]

end Sys2Proof.Machine
end

section
/-! PROOFS. The sample commands (40_sample.md): what each of them writes, which bits of a read phase a
sample depends on, and how the phases move over a list of commands. -/

namespace Sys2Proof.Machine

/-! ### What a sample command writes (R147, R150, R151, R152) -/

/-- The phases a sample command leaves and reads at: advanced by NEXT and PHMOD (R150, R152). -/
def State.samplePhases (s : State) (i : Instr) : Lanes Word :=
  if i.advances then s.advance.phase else s.phase

/-- The state a sample command leaves; `exec_sample` ties it to `exec`. -/
def State.sampled (s : State) (i : Instr) : State :=
  { s with
    phase := s.samplePhases i
    respA := s.respA ++ [sampleWord (s.mix (s.samplePhases i) (i.transientOffset s.cfg))]
    draws := s.draws + 14 }

theorem exec_sample {i : Instr} (hi : i.opcode.port = .a) (s : State) :
    exec i s = .next (s.sampled i) := by
  cases i with
  | next | peek => rfl
  | phmod proportion => rw [State.sampled, transientOffset_phmod]; rfl
  | setwt | setfreq | setnote | setnotesh | setgains | rdreg => cases hi

/-- R150: each phase advances by its increment modulo 2^32. -/
theorem State.advance_phase_get (s : State) (i : Fin 7) :
    s.advance.phase[i] = s.phase[i] + s.inc[i] := by
  simp [State.advance, advancedPhase_eq]

theorem State.advance_phase_toNat (s : State) (i : Fin 7) :
    s.advance.phase[i].toNat = (s.phase[i].toNat + s.inc[i].toNat) % 2 ^ 32 := by
  rw [State.advance_phase_get, BitVec.toNat_add]

/-- Settles O6. -/
theorem nextAdvancesThenSamples : Obligations.NextAdvancesThenSamples :=
  ⟨rfl, fun s => ⟨_, _, exec_sample rfl s, rfl, s.advance_phase_toNat, s.mix_respondsTo _ _⟩⟩

/-- Settles O7. -/
theorem peekSamplesInPlace : Obligations.PeekSamplesInPlace :=
  ⟨rfl, fun s => ⟨_, _, exec_sample rfl s, rfl, s.mix_respondsTo _ _⟩⟩

/-- R152: the offset of PHMOD modulo 2^32. -/
theorem transientOffset_phmod_toNat (c : Config) (proportion : Word) :
    (((Instr.phmod proportion).transientOffset c).toNat : Int) =
      proportion.toInt * 2 ^ c.log2Cells % 2 ^ 32 := by
  simp [phaseOffset_toNat, Config.cells]

/-- Settles O8. -/
theorem phmodSamplesAtOffset : Obligations.PhmodSamplesAtOffset :=
  ⟨fun _ => rfl, fun s proportion => ⟨_, _, _, exec_sample rfl s, rfl, s.advance_phase_toNat,
    transientOffset_phmod_toNat s.cfg proportion, s.mix_respondsTo _ _⟩⟩

/-- Settles O9. -/
theorem sampleCommandsTouchNoSetting : Obligations.SampleCommandsTouchNoSetting :=
  fun s _ hi => ⟨_, exec_sample hi s, rfl, rfl, rfl, rfl, rfl, rfl, rfl, rfl, fun _ => rfl⟩

/-- Settles O10: the offset is no part of the phases a sample command leaves. -/
theorem phmodOffsetNeverStored : Obligations.PhmodOffsetNeverStored :=
  fun s _ => ⟨_, _, exec_sample rfl s, exec_sample rfl s, rfl⟩

/-! ### The index bits (R142) -/

theorem tableIndex_eq_extractLsb' (c : Config) (q : Word) :
    tableIndex c q = (q.extractLsb' 16 c.log2Cells).toNat := by
  rw [tableIndex_eq, BitVec.extractLsb'_toNat, Nat.shiftRight_eq_div_pow, Config.cells]

theorem tableIndex_eq_zero {c : Config} (h : c.log2Cells = 0) (q : Word) : tableIndex c q = 0 := by
  rw [tableIndex_eq, Config.cells, h, pow_zero, Nat.mod_one]

/-- R142: the fraction bits and the bits above 16+k-1 do not affect the index. -/
theorem tableIndex_congr {c : Config} {q q' : Word}
    (h : ∀ b, 16 ≤ b → b < 16 + c.log2Cells → q'.getLsbD b = q.getLsbD b) :
    tableIndex c q' = tableIndex c q := by
  have hbits : q'.extractLsb' 16 c.log2Cells = q.extractLsb' 16 c.log2Cells := by
    apply BitVec.eq_of_getLsbD_eq
    intro b hb
    simp only [BitVec.getLsbD_extractLsb', h (16 + b) (by omega) (by omega)]
  rw [tableIndex_eq_extractLsb', tableIndex_eq_extractLsb', hbits]

/-- R141, R142: a sample depends on its read phases through their indices alone. -/
theorem State.mix_congr {s : State} {p p' : Lanes Word} {off off' : Word}
    (h : ∀ i, s.laneIndex p' off' i = s.laneIndex p off i) : s.mix p' off' = s.mix p off := by
  simp [State.mix, State.mixSum_eq, State.laneTerm, State.laneAddress1, State.laneAddress2, h]

/-- Settles O19. -/
theorem indexIsCellPositionBits : Obligations.IndexIsCellPositionBits := by
  intro c q
  refine ⟨tableIndex_eq_extractLsb' c q, fun h => tableIndex_eq_zero h q,
    fun q' => tableIndex_congr, ?_⟩
  rintro s p p' off rfl hbits
  refine State.mix_congr fun i => tableIndex_congr ?_
  simpa only [readPhase_eq] using hbits i

/-! ### Offsets of whole cycles (R167, R168) -/

/-- PHMOD is NEXT where its offset is inaudible. -/
theorem exec_phmod_eq_next {s : State} {proportion : Word}
    (h : ∀ p, s.mix p (phaseOffset s.cfg proportion) = s.mix p 0#32) :
    exec (.phmod proportion) s = exec .next s := by
  rw [exec_sample rfl, exec_sample rfl, State.sampled, transientOffset_phmod, h]
  rfl

/-- Settles O11. -/
theorem phmodZeroIsNext : Obligations.PhmodZeroIsNext :=
  fun s => exec_phmod_eq_next fun p => by simp [phaseOffset]

/-- The fraction and index bits of a read phase together span 2^16 * N values, one whole cycle. -/
theorem tableIndex_eq_mod_div (c : Config) (q : Word) :
    tableIndex c q = q.toNat % (2 ^ 16 * c.cells) / 2 ^ 16 := by
  rw [tableIndex_eq, Nat.mod_mul_right_div_self]

/-- Whole cycles divide the range of a phase in a well-formed configuration (R12). -/
theorem cycle_dvd_range {c : Config} (hw : c.wellFormed = true) : 2 ^ 16 * c.cells ∣ 2 ^ 32 := by
  obtain ⟨hk, -⟩ := (Config.wellFormed_iff c).mp hw
  rw [Config.cells, ← pow_add]
  exact pow_dvd_pow 2 (by omega)

/-- R168: an offset of whole cycles leaves the index. -/
theorem tableIndex_readPhase_of_dvd {c : Config} (hw : c.wellFormed = true) (q : Word) {off : Word}
    (h : 2 ^ 16 * c.cells ∣ off.toNat) :
    tableIndex c (readPhase q off) = tableIndex c (readPhase q 0#32) := by
  obtain ⟨n, hn⟩ := h
  simp only [tableIndex_eq_mod_div, readPhase, BitVec.toNat_ofNat,
    Nat.mod_mod_of_dvd _ (cycle_dvd_range hw), hn, Nat.add_mul_mod_self_left, Nat.zero_mod,
    Nat.add_zero]

/-- R168: a proportion of whole cycles gives an offset of whole cycles: reduction modulo 2^32 of the
proportion and of the offset both keep the divisor. -/
theorem cycle_dvd_phaseOffset {c : Config} (hw : c.wellFormed = true) (m : Int) :
    2 ^ 16 * c.cells ∣ (phaseOffset c (BitVec.ofInt 32 (m * 65536))).toNat := by
  have hprop : (2 ^ 16 : Int) ∣ (BitVec.ofInt 32 (m * 65536)).toInt := by
    rw [BitVec.toInt_ofInt, Int.bmod_def]
    omega
  have hrange : ((2 ^ 16 * c.cells : Nat) : Int) ∣ 2 ^ 32 := by exact_mod_cast cycle_dvd_range hw
  rw [← Int.natCast_dvd_natCast, phaseOffset_toNat, EuclideanDomain.dvd_mod_iff hrange]
  push_cast
  exact mul_dvd_mul_right hprop _

/-- Settles O12. -/
theorem wholeCyclePhmodIsNext : Obligations.WholeCyclePhmodIsNext :=
  fun _ m hw => exec_phmod_eq_next fun _ => State.mix_congr fun _ =>
    tableIndex_readPhase_of_dvd hw _ (cycle_dvd_phaseOffset hw m)

/-! ### Lists of commands -/

theorem runCommands_cons {i : Instr} {s t : State} (h : exec i s = .next t) (is : List Instr) :
    runCommands (i :: is) s = runCommands is t := by
  simp [runCommands, h]

/-- Every list of commands completes, and keeps what each of its commands keeps: the induction, done
once. -/
theorem runCommands_keeps {P : State → Prop} {is : List Instr}
    (hstep : ∀ i ∈ is, ∀ s t, P s → exec i s = .next t → P t) {s : State} (hs : P s) :
    ∃ t, runCommands is s = .next t ∧ P t := by
  induction is generalizing s with
  | nil => exact ⟨s, rfl, hs⟩
  | cons i is ih =>
    obtain ⟨u, hu⟩ := exec_completes i s
    rw [runCommands_cons hu]
    exact ih (fun j hj => hstep j (List.mem_cons_of_mem i hj)) (hstep i List.mem_cons_self s u hs hu)

/-! ### The advance law (R163) -/

/-- R187: only the frequency commands write the increments. -/
theorem exec_inc_of_not_setsFrequency {i : Instr} {s t : State} (hi : i.setsFrequency = false)
    (h : exec i s = .next t) : t.inc = s.inc := by
  cases i with
  | setfreq | setnote | setnotesh => cases hi
  | next | peek | phmod | setwt | setgains | rdreg => cases h; simp

/-- R150, R152: NEXT and PHMOD advance the phases, the other commands leave them. -/
theorem exec_phase_eq {i : Instr} {s t : State} (h : exec i s = .next t) :
    t.phase = s.samplePhases i := by
  cases i <;> cases h <;> rfl

/-- R163 for one command: the phase moves by one increment or none. -/
theorem exec_phase_toNat {i : Instr} {s t : State} (h : exec i s = .next t) (j : Fin 7) :
    t.phase[j].toNat = (s.phase[j].toNat + [i].countP Instr.advances * s.inc[j].toNat) % 2 ^ 32 := by
  rw [exec_phase_eq h, State.samplePhases]
  cases hi : i.advances with
  | true => simpa [hi] using s.advance_phase_toNat j
  | false => simpa [hi] using (Nat.mod_eq_of_lt s.phase[j].isLt).symm

theorem runCommands_advance {is : List Instr} (his : ∀ i ∈ is, i.setsFrequency = false)
    (s : State) : ∃ t, runCommands is s = .next t ∧ ∀ j : Fin 7, t.phase[j].toNat =
      (s.phase[j].toNat + is.countP Instr.advances * s.inc[j].toNat) % 2 ^ 32 := by
  induction is generalizing s with
  | nil => exact ⟨s, rfl, fun j => by simpa using (Nat.mod_eq_of_lt s.phase[j].isLt).symm⟩
  | cons i is ih =>
    obtain ⟨hi, his⟩ := List.forall_mem_cons.mp his
    obtain ⟨u, hu⟩ := exec_completes i s
    obtain ⟨t, ht, hphase⟩ := ih his u
    refine ⟨t, (runCommands_cons hu is).trans ht, fun j => ?_⟩
    have hcount : (i :: is).countP Instr.advances =
        [i].countP Instr.advances + is.countP Instr.advances := List.countP_append (l₁ := [i])
    rw [hphase j, exec_phase_toNat hu j, exec_inc_of_not_setsFrequency hi hu, hcount, Nat.add_mul,
      Nat.mod_add_mod, Nat.add_assoc]

/-- Settles O13. -/
theorem advanceLaw : Obligations.AdvanceLaw := fun _ s his => runCommands_advance his s

/-! ### Repeated samples where the cells are backed (R165, R166, R169) -/

theorem State.tableRead_draws_of_mapped {s : State} {addr : Nat} (n draws : Nat)
    (h : isMapped s.cfg addr = true) :
    { s with draws := draws }.tableRead n addr = s.tableRead n addr := by
  simp [State.tableRead, h]

/-- Where the cells read are backed a sum depends on no free value (R72). -/
theorem State.mixSum_draws_of_readsBacked {s : State} {p : Lanes Word} {off : Word}
    (h : s.ReadsBacked p off) (draws : Nat) :
    { s with draws := draws }.mixSum p off = s.mixSum p off := by
  have hterm (i : Fin 7) : { s with draws := draws }.laneTerm p off i = s.laneTerm p off i := by
    obtain ⟨h1, h2⟩ := h i
    rw [← State.laneAddress1_eq] at h1
    rw [← State.laneAddress2_eq] at h2
    exact congrArg₂ (fun c1 c2 : Byte => c1.toInt * s.gain1[i].toInt + c2.toInt * s.gain2[i].toInt)
      (State.tableRead_draws_of_mapped _ draws h1) (State.tableRead_draws_of_mapped _ draws h2)
  simp only [State.mixSum_eq, hterm]

/-- Two states in which a PEEK reads the same cells with the same gains. -/
structure State.SameVoice (s t : State) : Prop where
  cfg : t.cfg = s.cfg
  phase : t.phase = s.phase
  gain1 : t.gain1 = s.gain1
  gain2 : t.gain2 = s.gain2
  pointers : t.pointers = s.pointers
  tmem : t.tmem = s.tmem

theorem State.SameVoice.trans {s t u : State} (h : s.SameVoice t) (h' : t.SameVoice u) :
    s.SameVoice u where
  cfg := h'.cfg.trans h.cfg
  phase := h'.phase.trans h.phase
  gain1 := h'.gain1.trans h.gain1
  gain2 := h'.gain2.trans h.gain2
  pointers := h'.pointers.trans h.pointers
  tmem := h'.tmem.trans h.tmem

theorem State.SameVoice.mix_eq {s t : State} (h : s.SameVoice t) {off : Word}
    (hb : s.ReadsBacked s.phase off) : t.mix t.phase off = s.mix s.phase off := by
  obtain ⟨hw1, hb1, hw2, hb2⟩ := State.pointers_eq_iff.mp h.pointers
  have hsum := State.mixSum_congr (s := { s with draws := t.draws }) (t := t) h.cfg h.gain1 h.gain2
    hw1 hb1 hw2 hb2 h.tmem rfl s.phase off
  rw [State.mix, State.mix, h.phase, hsum, State.mixSum_draws_of_readsBacked hb]

/-- R169: a PEEK of the same voice gives the same response where the cells it reads are backed. -/
theorem State.SameVoice.peek_respA {s t : State} (h : s.SameVoice t)
    (hb : s.ReadsBacked s.phase 0#32) :
    (t.sampled .peek).respA = t.respA ++ [sampleWord (s.mix s.phase 0#32)] :=
  congrArg (fun sample => t.respA ++ [sampleWord sample]) (h.mix_eq hb)

/-- R166: PEEK, the frequency commands and RDREG leave everything that PEEK reads. -/
theorem exec_sameVoice {i : Instr} {s t : State}
    (hi : i = .peek ∨ i.setsFrequency = true ∨ ∃ reg, i = .rdreg reg)
    (h : exec i s = .next t) : s.SameVoice t := by
  cases i with
  | peek | setfreq | setnote | setnotesh | rdreg => cases h; exact ⟨rfl, rfl, rfl, rfl, rfl, rfl⟩
  | next | phmod | setwt | setgains => simp [Instr.setsFrequency] at hi

/-- Settles O14: NEXT leaves the voice whose phases it advanced. -/
theorem peekAfterNextRepeats : Obligations.PeekAfterNextRepeats := by
  intro s hb
  have hsame : s.advance.SameVoice (s.sampled .next) := ⟨rfl, rfl, rfl, rfl, rfl, rfl⟩
  exact ⟨_, _, _, exec_sample rfl s, exec_sample rfl _, rfl,
    (hsame.peek_respA hb).trans (List.append_assoc ..)⟩

/-- Settles O15: the voice is kept from before the first PEEK to the last. -/
theorem peekIsIdempotent : Obligations.PeekIsIdempotent := by
  intro s is hb his
  have hpeek : s.SameVoice (s.sampled .peek) := exec_sameVoice (.inl rfl) (exec_sample rfl s)
  obtain ⟨u, hu, hsame⟩ := runCommands_keeps (P := s.SameVoice)
    (fun i hi _ _ hs h => hs.trans (exec_sameVoice (his i hi) h)) hpeek
  exact ⟨_, u, _, _, exec_sample rfl s, hu, exec_sample rfl u, rfl, hsame.peek_respA hb⟩

end Sys2Proof.Machine
end

section
/-! PROOFS. The range of the sum of the fourteen weighted reads (40_sample.md): the accumulator of
every state (R144), and the sample under the gain contract (R146 b). -/

namespace Sys2Proof.Machine

theorem byte_toInt_bounds (b : Byte) : -128 ≤ b.toInt ∧ b.toInt ≤ 127 := by
  have hlo := b.le_toInt
  have hhi := b.toInt_lt
  omega

theorem foldl_add_eq_sum {α : Type} (f : α → Int) (l : List α) :
    l.foldl (fun acc n => acc + f n) 0 = (l.map f).sum := by
  rw [List.sum_eq_foldl, List.foldl_map]

/-- A sum of terms that lie in one range lies in that range times their number. -/
theorem sum_map_bounds {α : Type} {f : α → Int} {lo hi : Int} (h : ∀ n, lo ≤ f n ∧ f n ≤ hi)
    (l : List α) : l.length * lo ≤ (l.map f).sum ∧ (l.map f).sum ≤ l.length * hi := by
  constructor
  · simpa using List.card_nsmul_le_sum (l.map f) lo (by simp [h])
  · simpa using List.sum_le_card_nsmul (l.map f) hi (by simp [h])

/-! ### The accumulator (R144) -/

theorem byte_product_bounds (c g : Byte) :
    -16256 ≤ c.toInt * g.toInt ∧ c.toInt * g.toInt ≤ 16384 := by
  obtain ⟨hc1, hc2⟩ := byte_toInt_bounds c
  obtain ⟨hg1, hg2⟩ := byte_toInt_bounds g
  constructor <;> nlinarith

theorem State.readProduct_bounds (s : State) (p : Lanes Word) (off : Word) (n : Fin 14) :
    -16256 ≤ s.readProduct p off n ∧ s.readProduct p off n ≤ 16384 := by
  unfold State.readProduct
  dsimp only
  split <;> exact byte_product_bounds _ _

/-- A sum of distinct reads, fourteen at most. -/
theorem State.sum_readProduct_bounds (s : State) (p : Lanes Word) (off : Word)
    {l : List (Fin 14)} (hl : l.Nodup) :
    -227584 ≤ (l.map (s.readProduct p off)).sum ∧ (l.map (s.readProduct p off)).sum ≤ 229376 := by
  have hlen : l.length ≤ 14 := by simpa using hl.length_le_card
  obtain ⟨hlo, hhi⟩ := sum_map_bounds (s.readProduct_bounds p off) l
  omega

/-- R141, R144: the mix sums the fourteen products. -/
theorem State.sum_readProduct_eq_mixSum (s : State) (p : Lanes Word) (off : Word) :
    ((List.finRange 14).map (s.readProduct p off)).sum = s.mixSum p off := by
  have hreads : List.finRange 14 =
      harmonics.flatMap fun i => [⟨2 * i.val, by omega⟩, ⟨2 * i.val + 1, by omega⟩] := by decide
  simp [hreads, State.mixSum, foldl_add_eq_sum, State.laneTerm_eq_products,
    List.flatMap_def, List.sum_flatten, Function.comp_def]

/-- Settles O17: every sum of distinct products is bounded, and the mix is the one of all fourteen. -/
theorem accumulatorNeverOverflows : Obligations.AccumulatorNeverOverflows := by
  refine ⟨byte_product_bounds, fun s p off => ?_⟩
  obtain ⟨hlo, hhi⟩ := s.sum_readProduct_bounds p off (List.nodup_finRange 14)
  rw [State.sum_readProduct_eq_mixSum] at hlo hhi
  refine ⟨hlo, hhi, fun l hl => ?_, fun l hl => ?_⟩
  · rw [foldl_add_eq_sum, (hl.map _).sum_eq, State.sum_readProduct_eq_mixSum]
  · rw [foldl_add_eq_sum]
    exact s.sum_readProduct_bounds p off hl

/-! ### The gain contract (R42, R146 b) -/

/-- Two cells weighted by gains that are not negative and sum to 35 at most. -/
theorem weighted_pair_bounds (c1 c2 : Byte) {g1 g2 : Int} (h1 : 0 ≤ g1) (h2 : 0 ≤ g2)
    (hsum : g1 + g2 ≤ 35) :
    -4480 ≤ c1.toInt * g1 + c2.toInt * g2 ∧ c1.toInt * g1 + c2.toInt * g2 ≤ 4445 := by
  obtain ⟨hl1, hu1⟩ := byte_toInt_bounds c1
  obtain ⟨hl2, hu2⟩ := byte_toInt_bounds c2
  constructor <;> nlinarith

theorem State.sumAt_withinContract {s : State} (hg : s.GainsWithinContract) (p : Lanes Word)
    (off : Word) : -31360 ≤ s.sumAt p off ∧ s.sumAt p off ≤ 31115 := by
  have hterm (i : Fin 7) : -4480 ≤ s.laneTerm p off i ∧ s.laneTerm p off i ≤ 4445 := by
    obtain ⟨h1, h2, hsum⟩ := hg i
    exact weighted_pair_bounds _ _ h1 h2 hsum
  rw [← State.mixSum_eq_sumAt, State.mixSum, foldl_add_eq_sum]
  simpa [harmonics] using sum_map_bounds hterm harmonics

/-- R145: a response in the range of 16 signed bits is not wrapped. -/
theorem RespondsTo.toInt_eq {w : Word} {acc : Int} (h : RespondsTo w acc) (hlo : -131072 ≤ acc)
    (hhi : acc < 131072) : w.toInt = acc / 4 := by
  unfold RespondsTo at h
  omega

/-- Settles O18. -/
theorem contractSampleRange : Obligations.ContractSampleRange := by
  intro s i hi hg
  obtain ⟨hlo, hhi⟩ := State.sumAt_withinContract hg (s.samplePhases i) (i.transientOffset s.cfg)
  have hw := (s.mix_respondsTo (s.samplePhases i) (i.transientOffset s.cfg)).toInt_eq
    (by omega) (by omega)
  exact ⟨_, _, exec_sample hi s, rfl, rfl, hlo, hhi, hw, by omega, by omega⟩

end Sys2Proof.Machine
end

section
/-! PROOFS. The setters of port C (41_config.md): what each of them writes, the increment as the exact
ratio of a frequency, the detune, and the range of the gains. -/

namespace Sys2Proof.Machine

/-! ### SETWT (R183) -/

/-- Settles O26: the whole next state by `exec`, each pointer by the value of its operand. -/
theorem setwtInstallsPointers : Obligations.SetwtInstallsPointers := by
  refine ⟨fun _ _ _ _ => rfl, fun s w1 b1 w2 b2 hw => ?_⟩
  obtain ⟨-, -, -, hA⟩ := (Config.wellFormed_iff s.cfg).mp hw
  have hp (w : Word) := pointerOperand_toNat s.cfg w hA
  exact ⟨_, rfl, rfl, hp w1, hp b1, hp w2, hp b2⟩

/-! ### Frequencies (R186 to R192) -/

/-- R186: either branch of `Inc0` is the floor of `f * N / R`, modulo 2^32. -/
theorem firstIncrement_toNat_eq_ratio (c : Config) (f : Word) :
    (firstIncrement c f).toNat = f.toNat * 2 ^ c.log2Cells / 2 ^ c.log2Rate % 2 ^ 32 := by
  rw [firstIncrement_toNat]
  split
  case isTrue h => rw [Nat.mul_div_assoc _ (Nat.pow_dvd_pow 2 h), Nat.pow_div h two_pos]
  case isFalse h =>
    have hlt : f.toNat / 2 ^ (c.log2Rate - c.log2Cells) < 2 ^ 32 :=
      Nat.lt_of_le_of_lt (Nat.div_le_self _ _) f.isLt
    rw [← Nat.pow_sub_mul_pow 2 (Nat.le_of_not_le h), Nat.mul_div_mul_right _ _ (by positivity),
      Nat.mod_eq_of_lt hlt]

/-- Settles O28. -/
theorem incrementIsExactRatio : Obligations.IncrementIsExactRatio := by
  intro c f
  refine ⟨fun h => ?_, fun h => ?_, firstIncrement_toNat_eq_ratio c f⟩
  · rw [firstIncrement_toNat, if_pos h]
  · rw [firstIncrement_toNat, if_neg (Nat.not_le.mpr h)]

theorem octaveStack_toNat (v : Word) (i : Fin 7) :
    (octaveStack v)[i].toNat = v.toNat / 2 ^ i.val := by
  rw [octaveStack_get, BitVec.toNat_ushiftRight, Nat.shiftRight_eq_div_pow]

/-- R187, R188: the whole next state of SETFREQ. -/
theorem exec_setfreq (s : State) (f : Word) : exec (.setfreq f) s =
    .next { s with inc := octaveStack (firstIncrement s.cfg f), status := s.status ||| 2#32 } := rfl

/-- Settles O27. -/
theorem setfreqWritesOctaveStack : Obligations.SetfreqWritesOctaveStack := by
  refine ⟨fun _ => rfl, fun s f => ⟨_, exec_setfreq s f, rfl, fun i => ?_⟩⟩
  rw [octaveStack_toNat, firstIncrement_toNat]

/-- R190: SETNOTE is SETFREQ of the note's frequency. -/
theorem exec_setnote (s : State) (note : Half) :
    exec (.setnote note) s = exec (.setfreq (noteFrequency s.cfg (biasedNote note))) s := rfl

/-- R192: SETNOTESH is SETFREQ of the note's frequency, detuned. -/
theorem exec_setnotesh (s : State) (note : Half) (shift : Word) :
    exec (.setnotesh note shift) s =
      exec (.setfreq (detuned (noteFrequency s.cfg (biasedNote note)) shift)) s := rfl

/-- Settles O29. -/
theorem setnoteIsSetfreqOfNote : Obligations.SetnoteIsSetfreqOfNote :=
  ⟨fun _ => rfl, fun s note => ⟨_, _, biasedNote_toNat note,
    (exec_setnote s note).trans (exec_setfreq s _), exec_setfreq s _, rfl⟩⟩

/-- Settles O30. -/
theorem setnoteshIsSetfreqOfDetune : Obligations.SetnoteshIsSetfreqOfDetune :=
  ⟨fun _ _ => rfl, fun s note shift => ⟨_, _, _, _, biasedNote_toNat note, rfl,
    detuned_toNat _ shift, (exec_setnotesh s note shift).trans (exec_setfreq s _),
    exec_setfreq s _, rfl⟩⟩

/-- R191: a shift of m times 1023 divides exactly, and so scales the frequency by 1 + m. -/
theorem detuned_of_multiple (f0 : Word) {shift : Word} {m : Int} (h : shift.toInt = m * 1023) :
    detuned f0 shift = BitVec.ofInt 32 (f0.toNat * (1 + m)) := by
  rw [detuned, h, ← mul_assoc, Int.mul_tdiv_cancel _ (by norm_num), mul_add, mul_one]

/-- Settles O31: the three shifts are 0, 1 and -1 times 1023. -/
theorem detuneCornerCases : Obligations.DetuneCornerCases := by
  intro f0
  refine ⟨?_, ?_, ?_⟩
  · rw [detuned_of_multiple f0 (m := 0) (by decide)]
    simp
  · rw [detuned_of_multiple f0 (m := 1) (by decide), BitVec.toNat_ofInt]
    omega
  · rw [detuned_of_multiple f0 (m := -1) (by decide)]
    simp

/-! ### Gains (R200 to R211) -/

/-- R201, R203: the gain of harmonic i is the wrapped floor for drawbar level g_(6-i). -/
theorem gainStack_toInt (g0 g1 g2 g3 g4 g5 g6 : Half) (scale : Int) (i : Fin 7) :
    (gainStack #v[g0, g1, g2, g3, g4, g5, g6] scale)[i].toInt =
      (#v[g6, g5, g4, g3, g2, g1, g0][i].toNat * scale / 1024 + 2 ^ 7) % 2 ^ 8 - 2 ^ 7 := by
  rw [gainStack_reversed, gainValue_toInt_wrapped]

/-- Settles O32. -/
theorem setgainsWritesGains : Obligations.SetgainsWritesGains := by
  refine ⟨fun _ _ _ _ _ _ _ _ => rfl,
    fun s g0 g1 g2 g3 g4 g5 g6 mix => ⟨_, rfl, rfl, fun i => ?_⟩⟩
  exact ⟨gainStack_toInt g0 g1 g2 g3 g4 g5 g6 (scaleOne mix) i,
    gainStack_toInt g0 g1 g2 g3 g4 g5 g6 (scaleTwo mix) i⟩

/-- R205: of two truncated parts of 36, one unit is lost unless both divide exactly. -/
theorem scaleOne_add_scaleTwo {mix : Half} (hm : mix.toNat ≤ 64) :
    scaleOne mix + scaleTwo mix = if 36 * mix.toNat % 64 = 0 then 36 else 35 := by
  unfold scaleOne scaleTwo
  rw [Int.tdiv_eq_ediv_of_nonneg (by omega), Int.tdiv_eq_ediv_of_nonneg (by omega)]
  split
  case isTrue h => omega
  case isFalse h =>
    zify at h
    omega

/-- Settles O33: the exact floors of R203, bounded by the sum of the two gains of a harmonic. -/
theorem contractGainsNeverWrap : Obligations.ContractGainsNeverWrap := by
  intro g mix hg hm
  obtain ⟨hs1, hs2, hsum⟩ := scales_withinContract hm
  obtain ⟨h1, h2, hle⟩ := gainValues_withinContract hg hm
  have hs1' : scaleOne mix ≤ 36 := by omega
  have hs2' : scaleTwo mix ≤ 36 := by omega
  exact ⟨hs1, hs1', hs2, hs2', scaleOne_add_scaleTwo hm, gainValue_toInt hs1 hs1' hg,
    gainValue_toInt hs2 hs2' hg, h1, by omega, h2, by omega⟩

/-- R201: SETGAINS writes every gain, so what the gains were does not matter. -/
theorem exec_setgains_forgets_gains (s : State) (a b : Lanes Byte)
    (g0 g1 g2 g3 g4 g5 g6 mix : Half) :
    exec (.setgains g0 g1 g2 g3 g4 g5 g6 mix) { s with gain1 := a, gain2 := b } =
      exec (.setgains g0 g1 g2 g3 g4 g5 g6 mix) s := rfl

/-- Settles O34: with the gains before taken as 0, the contract is one that the command keeps. -/
theorem contractGainBudget : Obligations.ContractGainBudget := by
  intro s g0 g1 g2 g3 g4 g5 g6 mix hi
  obtain ⟨t, ht⟩ := exec_completes (.setgains g0 g1 g2 g3 g4 g5 g6 mix) s
  have hzero : { s with gain1 := .replicate 7 0#8, gain2 := .replicate 7 0#8 }.GainsWithinContract :=
    resetInstance_gainsWithinContract s s.phase
  exact ⟨t, ht, exec_keepsGainsWithinContract hi hzero
    ((exec_setgains_forgets_gains s _ _ g0 g1 g2 g3 g4 g5 g6 mix).trans ht)⟩

/-- R203: a scale of 0 gives every harmonic a gain of 0. -/
theorem gainStack_scale_zero (levels : Lanes Half) (i : Fin 7) : (gainStack levels 0)[i] = 0#8 := by
  rw [gainStack_get]
  simp [gainValue, floorShift]

/-- Settles O36: a mix at either end makes the other set's scale 0. -/
theorem crossfadeEnds : Obligations.CrossfadeEnds := by
  have h0 : scaleTwo 0#16 = 0 := by decide
  have h64 : scaleOne 64#16 = 0 := by decide
  refine fun s g0 g1 g2 g3 g4 g5 g6 => ⟨⟨_, rfl, fun i => ?_⟩, ⟨_, rfl, fun i => ?_⟩⟩
  · rw [h0, gainStack_scale_zero]
  · rw [h64, gainStack_scale_zero]

/-! ### What no setter writes (R181, R182) -/

/-- Settles O37: of port C's commands only RDREG responds, and none writes phases or table memory. -/
theorem settersLeavePhasesAndStreams : Obligations.SettersLeavePhasesAndStreams := by
  intro s i hport hread
  cases i with
  | setwt | setfreq | setnote | setnotesh | setgains =>
    exact ⟨_, rfl, rfl, rfl, rfl, fun _ => rfl⟩
  | rdreg reg => exact absurd rfl (hread reg)
  | next | peek | phmod => cases hport

end Sys2Proof.Machine
end

section
/-! PROOFS. Readback (42_readback.md): what each register number reads, and that RDREG writes nothing
but its response. -/

namespace Sys2Proof.Machine

/-! ### The register numbers (R231, R232) -/

theorem State.readReg_phase (s : State) {reg : Half} {i : Fin 7} (h : reg.toNat = 0x00 + i.val) :
    s.readReg reg = s.phase[i] := by
  unfold State.readReg
  rw [dif_pos (by omega)]
  simp [h]

theorem State.readReg_inc (s : State) {reg : Half} {i : Fin 7} (h : reg.toNat = 0x08 + i.val) :
    s.readReg reg = s.inc[i] := by
  unfold State.readReg
  rw [dif_neg (by omega), dif_pos (by omega)]
  simp [h]

theorem State.readReg_gain1 (s : State) {reg : Half} {i : Fin 7} (h : reg.toNat = 0x10 + i.val) :
    s.readReg reg = s.gain1[i].signExtend 32 := by
  unfold State.readReg
  rw [dif_neg (by omega), dif_neg (by omega), dif_pos (by omega)]
  simp [h]

theorem State.readReg_gain2 (s : State) {reg : Half} {i : Fin 7} (h : reg.toNat = 0x18 + i.val) :
    s.readReg reg = s.gain2[i].signExtend 32 := by
  unfold State.readReg
  rw [dif_neg (by omega), dif_neg (by omega), dif_neg (by omega), dif_pos (by omega)]
  simp [h]

theorem State.readReg_reserved (s : State) {reg : Half}
    (h : reg.toNat = 0x07 ∨ reg.toNat = 0x0F ∨ reg.toNat = 0x17 ∨ reg.toNat = 0x1F ∨
      (0x24 ≤ reg.toNat ∧ reg.toNat ≤ 0x2F) ∨ 0x34 ≤ reg.toNat) : s.readReg reg = 0#32 := by
  unfold State.readReg
  simp (disch := omega) only [dif_neg, if_neg]

/-- R231: a gain reads sign-extended, so its value is kept. -/
theorem toInt_signExtend_gain (g : Byte) : (g.signExtend 32).toInt = g.toInt :=
  BitVec.toInt_signExtend_of_le (by decide)

/-! ### RDREG (R230 to R234) -/

/-- R230, R234: the whole next state of RDREG. -/
theorem exec_rdreg (s : State) (reg : Half) :
    exec (.rdreg reg) s = .next { s with respC := s.respC ++ [s.readReg reg] } := rfl

/-- Settles O39: the response is `readReg`, taken run by run and then at each single number. -/
theorem rdregReadsRegister : Obligations.RdregReadsRegister := by
  refine ⟨fun _ => rfl, fun s reg => ⟨s.readReg reg, exec_rdreg s reg, fun i => ?_, ?_⟩⟩
  · refine ⟨s.readReg_phase, s.readReg_inc, fun h => ?_, fun h => ?_⟩
    · rw [s.readReg_gain1 h, toInt_signExtend_gain]
    · rw [s.readReg_gain2 h, toInt_signExtend_gain]
  · and_intros <;> rintro rfl <;> rfl

/-- Settles O40: RDREG's row takes the whole of IMM16 as its operand, so no number is illegal. -/
theorem reservedRegistersReadZero : Obligations.ReservedRegistersReadZero := by
  intro s reg hreg
  have hlegal : headerCause .c (packHeader .rdreg reg) = none :=
    headerCause_packHeader .rdreg reg nofun
  refine ⟨hlegal, ?_⟩
  rw [exec_rdreg, s.readReg_reserved hreg]

end Sys2Proof.Machine
end

section
/-! PROOFS. The illegal-command fault (60_exceptions.md, R252 to R256): the cause of an illegal
header, the record the fault leaves in STATUS, and that a halted port stays as it is until a reset. -/

namespace Sys2Proof

/-! ### The cause of an illegal header (R254, R255) -/

/-- An OPC value is no row of the map where it is no row of either port. -/
theorem Opcode.ofCode?_eq_none_iff {b : Byte} :
    Opcode.ofCode? b = none ↔ b ∉ Port.a.codes ++ Port.c.codes := by
  rw [List.mem_append, Port.mem_codes, Port.mem_codes]
  cases Opcode.ofCode? b with
  | none => simp
  | some o => cases ho : o.port <;> simp [ho]

/-- R255: a header that selects a row is checked for its port, then for its other fields. -/
theorem headerCause_of_row {p : Port} {h : Word} {o : Opcode}
    (ho : Opcode.ofCode? (headerOpc h) = some o) :
    headerCause p h = if o.port ≠ p then some .wrongPort
      else if headerRsv h ≠ 0#8 ∨ (headerImm h ≠ 0#16 ∧ headerOpc h ∉ immCodes) then some .badField
      else none := by
  have himm : headerOpc h ∉ immCodes ↔ o.usesImm = false := by
    rw [← Opcode.code_of_ofCode? ho, Opcode.code_mem_immCodes, Bool.not_eq_true]
  simp only [headerCause, ho, himm, ite_or]

theorem headerCause_eq_badOpcode_iff {p : Port} {h : Word} :
    headerCause p h = some .badOpcode ↔ headerOpc h ∉ Port.a.codes ++ Port.c.codes := by
  rw [← Opcode.ofCode?_eq_none_iff]
  cases ho : Opcode.ofCode? (headerOpc h) with
  | none => simp [headerCause, ho]
  | some o =>
    rw [headerCause_of_row ho]
    split_ifs <;> simp

theorem headerCause_eq_wrongPort_iff {p q : Port} (hq : q ≠ p) {h : Word} :
    headerCause p h = some .wrongPort ↔ headerOpc h ∈ q.codes := by
  rw [Port.mem_codes]
  cases ho : Opcode.ofCode? (headerOpc h) with
  | none => simp [headerCause, ho]
  | some o =>
    have hport : o.port ≠ p ↔ o.port = q := by
      cases o.port <;> cases p <;> cases q <;> simp at hq ⊢
    rw [headerCause_of_row ho]
    split_ifs with hp <;> simp [← hport, hp]

theorem headerCause_eq_badField_iff {p : Port} {h : Word} :
    headerCause p h = some .badField ↔ headerOpc h ∈ p.codes ∧
      (headerRsv h ≠ 0#8 ∨ (headerImm h ≠ 0#16 ∧ headerOpc h ∉ immCodes)) := by
  rw [Port.mem_codes]
  cases ho : Opcode.ofCode? (headerOpc h) with
  | none => simp [headerCause, ho]
  | some o =>
    rw [headerCause_of_row ho]
    split_ifs with hp hf
    · simp [hp]
    · simp [not_not.mp hp, hf]
    · simp [hf]

end Sys2Proof

namespace Sys2Proof.Machine

/-- Settles O46: the table of R254, row by row. -/
theorem causeByCondition : Obligations.CauseByCondition := by
  refine ⟨⟨rfl, rfl, rfl⟩, fun p h => ⟨headerCause_eq_badOpcode_iff, ?_, ?_⟩⟩
  · cases p with
    | a => exact headerCause_eq_wrongPort_iff (q := .c) (by decide)
    | c => exact headerCause_eq_wrongPort_iff (q := .a) (by decide)
  · cases p with
    | a => exact headerCause_eq_badField_iff
    | c => exact headerCause_eq_badField_iff

/-! ### The fault record by its bits of STATUS (R49) -/

/-- The place of FAULT_P in STATUS (R49). -/
def faultIndex : Port → Nat
  | .a => 3
  | .c => 4

theorem faultMask_eq_twoPow (p : Port) : faultMask p = BitVec.twoPow 32 (faultIndex p) := by
  cases p <;> rfl

theorem faultBit_eq_getLsbD (p : Port) (st : Word) :
    faultBit p st = st.getLsbD (faultIndex p) := by
  rw [faultBit, faultMask_eq_twoPow, BitVec.and_twoPow]
  cases st.getLsbD (faultIndex p) with
  | false => rfl
  | true => cases p <;> rfl

theorem causeMask_getLsbD (p : Port) (b : Nat) : (causeMask p).getLsbD b =
    (decide (b < 32) && (decide (causeShift p ≤ b) && decide (b < causeShift p + 3))) := by
  have h7 (i : Nat) : (7#32).getLsbD i = decide (i < 3) := by
    rw [BitVec.getLsbD_ofNat, show 7 = 2 ^ 3 - 1 from rfl, Nat.testBit_two_pow_sub_one]
    grind
  rw [causeMask, BitVec.getLsbD_shiftLeft, h7]
  grind

/-- R49: CAUSE_P is three bits of STATUS. -/
theorem causeField_eq_extractLsb' (p : Port) (st : Word) :
    causeField p st = (st.extractLsb' (causeShift p) 3).setWidth 32 := by
  have hshift : causeShift p + 3 ≤ 32 := by cases p <;> decide
  apply BitVec.eq_of_getLsbD_eq
  intro i hi
  simp only [causeField, BitVec.getLsbD_ushiftRight, BitVec.getLsbD_and, causeMask_getLsbD,
    BitVec.getLsbD_setWidth, BitVec.getLsbD_extractLsb']
  grind

theorem causeField_toNat (p : Port) (st : Word) :
    (causeField p st).toNat = (st.extractLsb' (causeShift p) 3).toNat := by
  rw [causeField_eq_extractLsb', BitVec.toNat_setWidth_of_le (by decide)]

theorem extractLsb'_causeShift (p : Port) (st : Word) :
    st.extractLsb' (causeShift p) 3 = (causeField p st).setWidth 3 := by
  rw [causeField_eq_extractLsb', BitVec.setWidth_setWidth_of_le _ (by decide), BitVec.setWidth_eq]

/-- R252: the fault writes no bit of STATUS outside FAULT_P and CAUSE_P. -/
theorem withFault_getLsbD_outside {p : Port} {b : Nat} (hfault : b ≠ faultIndex p)
    (hcause : ¬ (causeShift p ≤ b ∧ b ≤ causeShift p + 2)) (cause : Cause) (st : Word) :
    (withFault p cause st).getLsbD b = st.getLsbD b := by
  have hf : (faultMask p).getLsbD b = false := by
    simp [faultMask_eq_twoPow, hfault.symm]
  have hm : (causeMask p).getLsbD b = false := by
    rw [causeMask_getLsbD]
    grind
  have hcode : (causeCode cause <<< causeShift p).getLsbD b = false := by
    have hsub : causeCode cause <<< causeShift p =
        causeCode cause <<< causeShift p &&& causeMask p := by
      cases p <;> cases cause <;> rfl
    rw [hsub, BitVec.getLsbD_and, hm, Bool.and_false]
  simp only [withFault, BitVec.getLsbD_or, BitVec.getLsbD_and, BitVec.getLsbD_not, hf, hm, hcode]
  grind

/-! ### The fault is recorded (R252) -/

/-- The step of a running port served with an illegal header. -/
theorem step_serve_illegal {s : State} {p : Port} {cause : Cause} {h : Word} {ws : List Word}
    {ms : List Move} (hw : s.cfg.wellFormed = true) (hm : s.moves = .serve p :: ms)
    (hrun : s.halted p = false) (hpend : s.pend p = h :: ws) (hc : headerCause p h = some cause) :
    step s = .next ({ s with moves := ms }.illegalCommand p cause h) := by
  rw [step_of_moves hw hm]
  refine State.servePort_illegal (s := { s with moves := ms }) hrun ?_
  rw [State.pend_with_moves, hpend, decode_illegal ws hc]

/-- Settles O52: the two ports differ only in the places of their fields. -/
theorem illegalCommandIsRecorded : Obligations.IllegalCommandIsRecorded := by
  refine ⟨fun s => ⟨faultBit_eq_getLsbD .a _, faultBit_eq_getLsbD .c _, causeField_toNat .a _,
    causeField_toNat .c _⟩, fun s p cause h ws ms hw hm hrun hpend hc => ?_⟩
  have hfault : (withFault p cause s.status).getLsbD (faultIndex p) = true := by
    rw [← faultBit_eq_getLsbD, faultBit_withFault]
  have hcode : (withFault p cause s.status).extractLsb' (causeShift p) 3 =
      (causeCode cause).setWidth 3 := by
    rw [extractLsb'_causeShift, causeField_withFault]
  refine ⟨_, step_serve_illegal hw hm hrun hpend hc, by simp [State.halted], by simp, ?_⟩
  rw [State.illegalCommand_status]
  cases p <;> exact ⟨hfault, hcode.trans (by cases cause <;> rfl),
    fun _ ⟨hb, hout⟩ => withFault_getLsbD_outside hb hout _ _, rfl⟩

/-! ### A halted port (R253) -/

theorem State.endedWell_of_halted {s : State} {p : Port} (hp : s.halted p = true) :
    s.endedWell = false := by
  cases p <;> simp [State.endedWell, hp]

theorem State.servePort_of_halted {s : State} {p : Port} (hp : s.halted p = true) :
    s.servePort p = .next s := by
  simp [State.servePort, hp]

theorem State.deliver_of_halted {s : State} {p : Port} (w : Word) (hp : s.halted p = true) :
    s.deliver p w = s := by
  simp [State.deliver, hp]

/-- R256: the fault of one port does not stop the other. -/
theorem State.illegalCommand_halted_other (s : State) {p q : Port} (h : q ≠ p) (cause : Cause)
    (hdr : Word) : (s.illegalCommand p cause hdr).halted q = s.halted q := by
  rw [State.halted, State.illegalCommand_status, faultBit_withFault_other h, State.halted]

/-- R256: the fault of one port leaves the header recorded for the other. -/
theorem State.illegalCommand_fhdr_other (s : State) {p q : Port} (h : q ≠ p) (cause : Cause)
    (hdr : Word) : (s.illegalCommand p cause hdr).fhdr q = s.fhdr q := by
  cases q <;> simp [State.fhdr, h.symm]

/-- The record of a fault is kept while the port is halted: only a reset, or a fault of this port,
which no longer runs, would write it. -/
theorem step_keepsFault {s t : State} {q : Port} (hq : s.halted q = true) (h : step s = .next t)
    (hreset : ∀ seeds, s.nextMove ≠ .reset seeds) :
    t.halted q = true ∧ causeField q t.status = causeField q s.status ∧ t.fhdr q = s.fhdr q := by
  cases step_effect h with
  | command p i rest _ _ _ _ he =>
    obtain ⟨-, hfa, hfc, -⟩ := exec_untouched he
    obtain ⟨hb, hc, -⟩ := exec_keepsFaultFields he q
    exact ⟨hb.trans (by simpa [State.halted] using hq), by simpa using hc,
      State.fhdr_congr (by simpa using hfa) (by simpa using hfc) q⟩
  | fault p cause hdr _ hrun =>
    have hne : q ≠ p := by
      rintro rfl
      simp [hrun] at hq
    exact ⟨(s.dropMove.illegalCommand_halted_other hne cause hdr).trans hq,
      by simp [causeField_withFault_other hne],
      (s.dropMove.illegalCommand_fhdr_other hne cause hdr).trans (State.fhdr_congr rfl rfl q)⟩
  | reset seeds hm => exact absurd hm (hreset seeds)
  | deliver | stand | tableWrite | consume | otherInstances =>
    exact ⟨(State.halted_eq_of_status (by simp) q).trans hq, by simp,
      State.fhdr_congr (by simp) (by simp) q⟩

/-- Settles O53. -/
theorem haltedPortIsStuckUntilReset : Obligations.HaltedPortIsStuckUntilReset := by
  intro s p hp
  refine ⟨State.endedWell_of_halted hp, fun ms hw hm => ?_, fun w ms hw hm => ?_,
    fun t h hreset => step_keepsFault hp h hreset⟩
  · rw [step_of_moves hw hm]
    exact State.servePort_of_halted (s := { s with moves := ms }) hp
  · rw [step_of_moves hw hm, State.perform,
      State.deliver_of_halted (s := { s with moves := ms }) w hp]

end Sys2Proof.Machine
end

section
/-! PROOFS. A reset as a step of any state (70_reset_and_hazards.md, R280, R281, R284). -/

namespace Sys2Proof.Machine

/-- R280: a pending reset is performed whatever the instance is doing: a halted port, a packet half
received and responses not consumed do not hold it up. -/
theorem step_of_reset {s : State} {seeds : Lanes Word} {ms : List Move}
    (hw : s.cfg.wellFormed = true) (hm : s.moves = .reset seeds :: ms) :
    step s = .next ({ s with moves := ms }.resetInstance seeds) := by
  rw [step_of_moves hw hm, State.perform]

/-- Settles O2: the statement writes out, register by register, what `State.resetInstance` leaves. -/
theorem resetEventRestoresInstance : Obligations.ResetEventRestoresInstance := by
  intro s seeds ms hw hm
  rw [step_of_reset hw hm]
  rfl

end Sys2Proof.Machine
end
